-- ==== Sys2Proof/Word.lean ====
section
/-! DEFINITION. The widths the spec names (00_scope.md R5, R8): a byte, the SHA-1 word, the counter, and the
16-bit command and response words. Every integer of this hardware is unsigned (R8). -/

namespace Sys2Proof

/-- A byte, value 0 to 255 (R8). -/
abbrev Byte := BitVec 8

/-- A 32-bit word of SHA-1 and of the extractor (44_sha1.md, 45_hotp_truncation.md R131). -/
abbrev Word32 := BitVec 32

/-- The counter's width, `CTR_BITS` = 64 (R5). -/
abbrev Word64 := BitVec 64

/-- A command word `cmd[15:0]` (30_encoding.md R50). -/
abbrev Cmd := BitVec 16

/-- A response word `rsp[15:0]` (30_encoding.md R54). -/
abbrev Rsp := BitVec 16

end Sys2Proof
end

