-- ==== Sys2Proof/Machine/Bytes.lean ====
section
/-! DEFINITION. Byte strings and the big-endian helpers of the spec's notation (00_scope.md R8; 20_memory.md R34). Every
multi-byte quantity of the engine is big-endian: the byte with the lowest index is the most significant. -/

namespace Sys2Proof.Machine

/-- `s[i]`, byte `i` of a byte string (R8). An index at or above the length, which no rule forms, reads 0x00
(DESIGN CHOICE, log entry 9). -/
def byteAt (s : List Byte) (i : Nat) : Byte := s.getD i 0#8

/-- `rep(c, n)`: `n` copies of byte `c` (R8). -/
def rep (c : Byte) (n : Nat) : List Byte := List.replicate n c

/-- `s[a .. a + n)`: `n` bytes from index `a` (R8). -/
def slice (s : List Byte) (a n : Nat) : List Byte := (s.drop a).take n

/-- `be32(b0, b1, b2, b3)`, `b0` the most significant byte (R8). -/
def be32 (b0 b1 b2 b3 : Byte) : Word32 := b0 ++ b1 ++ b2 ++ b3

/-- Byte `i` of the `n`-byte big-endian string of `v`: `(v div 2^(8*(n-1-i))) mod 256` (R8). -/
def beByte (v n i : Nat) : Byte := BitVec.ofNat 8 (v / 2 ^ (8 * (n - 1 - i)))

/-- `bytes_be(v, n)`: the `n`-byte string of `v`, byte 0 the most significant (R8). -/
def bytesBe (v n : Nat) : List Byte := (List.range n).map (beByte v n)

/-- `ROTL32(x, n)` for `0 < n < 32` (R8). -/
def rotl32 (x : Word32) (n : Nat) : Word32 := (x <<< n) ||| (x >>> (32 - n))

/-- A byte string XORed with one constant byte, byte by byte (43_hmac.md R100, R102). -/
def xorByte (s : List Byte) (c : Byte) : List Byte := s.map (· ^^^ c)

end Sys2Proof.Machine
end

