-- ==== Sys2Proof/Config.lean ====
section
/-! DEFINITION. The one open implementation parameter, `KEY_MAX` (00_scope.md R6, 93_implementation_defined.md U2).
It is a field of a plain record, so that a statement can quantify over every engine the spec allows. The spec leaves no
VALUE open (60_exceptions.md R171), so there is no free value here. -/

namespace Sys2Proof

/-- What an implementation fixes: the capacity of the key buffer in bytes (R6). -/
structure Config where
  keyMax : Nat
deriving DecidableEq, Repr

/-- The constraint of R6: `20 <= KEY_MAX < 2^61 - 64`. -/
abbrev Config.wf (c : Config) : Prop := 20 ≤ c.keyMax ∧ c.keyMax < 2 ^ 61 - 64

/-- The spec's own default, 128 (R6). DESIGN CHOICE (log entry 1), unsafe for a claim that rests on the number. -/
def Config.standard : Config where
  keyMax := 128

end Sys2Proof
end

