-- ==== Sys2Proof/Machine/State.lean ====
section
/-! DEFINITION. The state of one engine, the six elements of 10_state.md R10; around it the parameter its step is applied
to and what stands for its one partner, the host. Plain data throughout. -/

namespace Sys2Proof.Machine

/-- A byte buffer in one canonical form: pairs of index and byte, indexes strictly rising, no entry equal to what an
unlisted index reads as (0x00, the reset contents of R23). -/
abbrev Memory := List Host.Cell

/-- The engine's own faults (60_exceptions.md R150). They are ordinary outcomes of a command, reported in its response
word; the machine goes on (R171), so they are NOT values of `Fault` below. -/
inductive EngineFault where
  /-- Code 1: `GO` with no usable secret (R151). -/
  | invalidSecret
  /-- Code 2: a word with no meaning (R152). -/
  | illegalCommand
  /-- Code 3: `RDCH` with no Code (R153). -/
  | noCode
  /-- Code 4: `KEYB` with the buffer full (R154). -/
  | keyOverflow
deriving DecidableEq, Repr

/-- The host's two moves (70_reset_and_hazards.md R191). -/
inductive HostMove where
  /-- Present a command word, any of the 65,536. -/
  | command (w : Cmd)
  /-- Apply reset, one atomic event between commands (R180, R181). -/
  | reset
deriving DecidableEq, Repr

/-- THE STATE OF THE ENGINE, the `S` of 00_scope.md R9: the six elements of 10_state.md R10 and nothing else. `KEY_MAX`, the
command stream, clocks, constants and latencies are no fields of it (10_state.md R24): they are arguments of the functions
over it, or are nowhere. -/
structure Engine where
  key   : Memory
  klen  : Nat
  kovf  : Bool
  ctr   : Word64
  code  : Memory
  valid : Bool
deriving DecidableEq, Repr

/-- The engine right after reset (10_state.md R23): all six elements zero, none unspecified. -/
def Engine.reset : Engine where
  key   := []
  klen  := 0
  kovf  := false
  ctr   := 0#64
  code  := []
  valid := false

/-- One engine and what stands around it: the six elements are the engine's state, the four fields below are no state of
the engine but the arguments and the record of its step, which the host interface of this project, a step from a state to an
outcome, leaves no other place for (log entry 1).
`cfg` is the parameter the step is applied to (00_scope.md R6, 10_state.md R24), written by no step (log entry 1).
`resetSeen` says that reset has been applied since power-up (70_reset_and_hazards.md R183; log entry 4).
`moves` are the host's moves to come, the next one first (R9, R24, R191), which no command reads (log entry 2).
`rsps` are the response words the host has been handed, oldest first (R9, 30_encoding.md R54; log entry 3). -/
structure State extends Engine where
  cfg       : Config
  resetSeen : Bool
  moves     : List HostMove
  rsps      : List Rsp
deriving DecidableEq, Repr

/-- Reasons for the machine to stop with a fault. THERE IS NONE: "The engine is never stuck, never hangs, never refuses to
answer, and has no undefined behaviour on any command word" (60_exceptions.md R171). The type has no constructor, which is
safe: no run of the model can end in a fault that the engine does not have. -/
inductive Fault where
deriving DecidableEq, Repr

/-- Reasons for the model to refuse a step. -/
inductive Refusal where
  /-- Raised by `exec` for an instruction with no meaning yet; no arm of this model does. Safe. -/
  | notModelled (mnemonic : String)
  /-- Raised by `step` alone, for a command issued before the first reset after power-up, which the spec calls one with
  "no defined outcome" and treats as `refuse` (70_reset_and_hazards.md R183, 93_implementation_defined.md U1). Safe. -/
  | beforeFirstReset
deriving DecidableEq, Repr

/-- The machine right after reset (10_state.md R23): the engine's reset state. The other four fields are the model's own: the
spec's default `KEY_MAX`, reset seen, and a host that has not moved yet (log entries 1 to 4). -/
def State.reset : State where
  toEngine  := Engine.reset
  cfg       := Config.standard
  resetSeen := true
  moves     := []
  rsps      := []

end Sys2Proof.Machine
end

