-- ==== Sys2Proof/Machine/Ops.lean ====
section
/-! DEFINITION. The named operations over the buffers and the state elements: `MemRead` and `MemWrite` (00_scope.md R8,
20_memory.md R30), zeroising (10_state.md R23), answering a command (R8 `OK`, 30_encoding.md R54), and raising a fault
(R8 `raise`, 60_exceptions.md R156). There is no return from a fault (60_exceptions.md R162): none leaves the flow of
commands, so no operation stands beside `raise` for it. -/

namespace Sys2Proof.Machine

/-- What an unlisted index reads as: 0x00, the reset contents of both buffers (10_state.md R23). -/
def Memory.unlisted : Byte := 0#8

/-- The byte at index `a`. -/
def Memory.read : Memory → Nat → Byte
  | [], _ => Memory.unlisted
  | (i, b) :: rest, a => if i = a then b else Memory.read rest a

/-- An entry put in front of a buffer, unless it says what an unlisted index reads as anyway. -/
def Memory.push (a : Nat) (b : Byte) (m : Memory) : Memory := if b = Memory.unlisted then m else (a, b) :: m

/-- One byte written at index `a`, keeping the canonical form. -/
def Memory.write : Memory → Nat → Byte → Memory
  | [], a, b => Memory.push a b []
  | (i, c) :: rest, a, b =>
    if a < i then Memory.push a b ((i, c) :: rest)
    else if a = i then Memory.push a b rest
    else (i, c) :: Memory.write rest a b

/-- The canonical form: indexes strictly rising, no entry equal to what an unlisted index reads as. -/
abbrev Memory.wf (m : Memory) : Prop :=
  m.Pairwise (fun c d => c.1 < d.1) ∧ ∀ c ∈ m, c.2 ≠ Memory.unlisted

/-- Every listed index lies below `n`, the size of the buffer (20_memory.md R31, R32). -/
abbrev Memory.within (m : Memory) (n : Nat) : Prop := ∀ c ∈ m, c.1 < n

/-- `n` bytes from index `a`, lowest index first (R8 `MemRead`). -/
def Memory.readBytes (m : Memory) (a n : Nat) : List Byte := (List.range n).map fun i => m.read (a + i)

/-- A byte string written from index `a` on (R8 `MemWrite`). -/
def Memory.writeBytes : Memory → Nat → List Byte → Memory
  | m, _, [] => m
  | m, a, b :: bs => Memory.writeBytes (m.write a b) (a + 1) bs

/-- A buffer with 0x00 in every byte, in its canonical form (00_scope.md glossary, "zeroise"). -/
def Memory.zeroised : Memory := []

/-- The two byte-addressed buffers (20_memory.md R30). -/
inductive Space where
  | key
  | code
deriving DecidableEq, Repr

/-- The size of `CODE` in bytes (20_memory.md R32). -/
def codeSize : Nat := 6

/-- How many bytes a buffer has, `KEY_MAX` being an argument (20_memory.md R31, R32; 10_state.md R24). -/
def Space.size (c : Config) : Space → Nat
  | .key => c.keyMax
  | .code => codeSize

/-- The contents of a buffer. -/
def Engine.buffer (e : Engine) : Space → Memory
  | .key => e.key
  | .code => e.code

/-- The engine with a buffer's contents replaced. -/
def Engine.withBuffer (e : Engine) (sp : Space) (m : Memory) : Engine :=
  match sp with
  | .key => { e with key := m }
  | .code => { e with code := m }

/-- One byte of a buffer. -/
def Engine.readByte (e : Engine) (sp : Space) (a : Nat) : Byte := (e.buffer sp).read a

/-- `MemRead(space, addr, n)` (R8). -/
def Engine.memRead (e : Engine) (sp : Space) (a n : Nat) : List Byte := (e.buffer sp).readBytes a n

/-- `MemWrite(space, addr, len(bs), bs)` (R8). -/
def Engine.memWrite (e : Engine) (sp : Space) (a : Nat) (bs : List Byte) : Engine :=
  e.withBuffer sp ((e.buffer sp).writeBytes a bs)

/-- The inputs of a call wiped: `KEY`, `KLEN`, `KOVF`, `CTR` to their reset values (42_go_command.md R90, R93). -/
def Engine.wipeInputs (e : Engine) : Engine :=
  { e with key := Memory.zeroised, klen := 0, kovf := false, ctr := 0#64 }

/-- The Code removed: `CODE` zeroised, `VALID` 0 (42_go_command.md R90). -/
def Engine.dropCode (e : Engine) : Engine := { e with code := Memory.zeroised, valid := false }

/-- All six elements to their reset values (10_state.md R23; R71, R90, R180). -/
def Engine.zeroise (e : Engine) : Engine := e.wipeInputs.dropCode

/-- What one command gives: the new state of the engine and the one response word, `(S', rsp)` (00_scope.md R9). -/
abbrev Reply := Engine × Rsp

/-- The response word of a success, `zext_16(d)` (R8 `OK`, 30_encoding.md R54). -/
def okWord (d : Byte) : Rsp := d.setWidth 16

/-- `rsp <- OK(d)` (R8). -/
def Engine.ok (e : Engine) (d : Byte) : Reply := (e, okWord d)

/-- The 4-bit code of a fault (60_exceptions.md R150). -/
def EngineFault.code : EngineFault → BitVec 4
  | .invalidSecret => 1#4
  | .illegalCommand => 2#4
  | .noCode => 3#4
  | .keyOverflow => 4#4

/-- The response word of a fault: the code in bits 11:8, a zero data byte (30_encoding.md R54, 60_exceptions.md R150). -/
def faultWord (f : EngineFault) : Rsp := f.code.setWidth 16 <<< 8

/-- TAKING A FAULT, the one shared operation (R8 `raise`; 60_exceptions.md R156, R157, R160): the response word of the
command carries the code, and that is all. No register saves anything, no mode changes, no control transfers; the state
writes a rule lists before its `raise` are made before this is called. -/
def Engine.raise (e : Engine) (f : EngineFault) : Reply := (e, faultWord f)

/-- `rsp[11:8]`, 0 on success (30_encoding.md R54). -/
def rspFault (r : Rsp) : BitVec 4 := r.extractLsb' 8 4

/-- `rsp[7:0]`, the returned byte (30_encoding.md R54). -/
def rspData (r : Rsp) : Byte := r.extractLsb' 0 8

/-- The reply of a command taken: the engine in its new state, the response handed to the host (R9, 30_encoding.md R54). The
parameter and the host's moves are as before. -/
def State.answered (s : State) (p : Reply) : State := { s with toEngine := p.1, rsps := s.rsps ++ [p.2] }

/-- A command's outcome from its reply: always a next state (60_exceptions.md R171). -/
def State.reply (s : State) (p : Reply) : Host.Outcome State Fault Refusal := .next (s.answered p)

/-- Reset applied: every state element to R23, no response, and from now on reset has been seen (70_reset_and_hazards.md
R180, R181, R183). -/
def State.applyReset (s : State) : State := { s with toEngine := s.toEngine.zeroise, resetSeen := true }

end Sys2Proof.Machine
end

