-- ==== Sys2Proof/Machine/Flags.lean ====
section
/-! DEFINITION. The two flags `VALID` and `KOVF` and the status view (10_state.md R17, R18). No arithmetic result sets a
flag. -/

namespace Sys2Proof.Machine

/-- `KNE`, key not empty: derived, 1 when `KLEN != 0` (10_state.md R18). -/
def Engine.kne (e : Engine) : Bool := e.klen != 0

/-- A flag as a byte, 0 or 1. -/
def flagByte (f : Bool) : Byte := (BitVec.ofBool f).setWidth 8

/-- `STATUS`: bit 0 `VALID`, bit 1 `KNE`, bit 2 `KOVF`, bits 7:3 zero (10_state.md R18, 46_read_commands.md R140). -/
def Engine.status (e : Engine) : Byte := (flagByte e.kovf <<< 2) ||| (flagByte e.kne <<< 1) ||| flagByte e.valid

/-- The condition of `KEYB`'s overflow: not `KLEN < KEY_MAX`, `KEY_MAX` being an argument (41_load_commands.md R80,
10_state.md R24). -/
def Engine.keyFull (c : Config) (e : Engine) : Bool := !decide (e.klen < c.keyMax)

/-- The condition of `GO`'s fault: `KLEN = 0` or `KOVF = 1` (42_go_command.md R90). -/
def Engine.secretUnusable (e : Engine) : Bool := e.klen == 0 || e.kovf

/-- `KOVF <- 1` (41_load_commands.md R80). -/
def Engine.setOverflow (e : Engine) : Engine := { e with kovf := true }

/-- `VALID <- 1` (42_go_command.md R93). -/
def Engine.setValid (e : Engine) : Engine := { e with valid := true }

end Sys2Proof.Machine
end

