-- ==== Sys2Proof/Machine/Sha1.lean ====
section
/-! DEFINITION. The function `SHA1` (44_sha1.md R110 to R121). The spec writes it from general knowledge and says so
(93_implementation_defined.md G1; log entry 7). All words are 32 bits and every addition wraps (R121). -/

namespace Sys2Proof.Machine

/-- Five words: the chaining value `(H0 .. H4)` of R113 and, inside a block, the working variables `(a .. e)` of R117. -/
structure Five where
  a : Word32
  b : Word32
  c : Word32
  d : Word32
  e : Word32
deriving DecidableEq, Repr

/-- The number of zero bytes of the padding, `z = (55 - L) mod 64`, written on naturals (R111). -/
def padZeros (len : Nat) : Nat := (119 - len % 64) % 64

/-- `PAD(m)`: the message, 0x80, `z` zero bytes, the length in bits as 8 big-endian bytes (R111). -/
def pad (m : List Byte) : List Byte :=
  m ++ [0x80#8] ++ rep 0#8 (padZeros m.length) ++ bytesBe (8 * m.length) 8

/-- Word `j` of a 64-byte block, big-endian (R112). -/
def blockWord (x : List Byte) (j : Nat) : Word32 :=
  be32 (byteAt x (4 * j)) (byteAt x (4 * j + 1)) (byteAt x (4 * j + 2)) (byteAt x (4 * j + 3))

/-- A block as its 16 words (R112). -/
def blockWords (x : List Byte) : List Word32 := (List.range 16).map (blockWord x)

/-- `W[t]` of a schedule held as a list. -/
def wordAt (ws : List Word32) (t : Nat) : Word32 := ws.getD t 0#32

/-- The word after the ones in `ws`: `ROTL32(W[t-3] ^ W[t-8] ^ W[t-14] ^ W[t-16], 1)` with `t` their number (R114). -/
def nextWord (ws : List Word32) : Word32 :=
  rotl32 (wordAt ws (ws.length - 3) ^^^ wordAt ws (ws.length - 8) ^^^ wordAt ws (ws.length - 14)
    ^^^ wordAt ws (ws.length - 16)) 1

/-- `n` more words of the schedule (R114). -/
def extendSchedule : Nat → List Word32 → List Word32
  | 0, ws => ws
  | n + 1, ws => extendSchedule n (ws ++ [nextWord ws])

/-- The message schedule `W[0 .. 80)` of a block (R112, R114). -/
def schedule (x : List Byte) : List Word32 := extendSchedule 64 (blockWords x)

/-- `Ch` (R115). -/
def chFn (b c d : Word32) : Word32 := (b &&& c) ||| (~~~b &&& d)

/-- `Parity` (R115). -/
def parityFn (b c d : Word32) : Word32 := b ^^^ c ^^^ d

/-- `Maj` (R115). -/
def majFn (b c d : Word32) : Word32 := (b &&& c) ||| (b &&& d) ||| (c &&& d)

/-- The round function `f_t` by round number (R115). -/
def roundFn (t : Nat) (b c d : Word32) : Word32 :=
  if t < 20 then chFn b c d else if t < 40 then parityFn b c d else if t < 60 then majFn b c d else parityFn b c d

/-- The round constant `K_t` by round number (R116). -/
def roundConst (t : Nat) : Word32 :=
  if t < 20 then 0x5A827999#32 else if t < 40 then 0x6ED9EBA1#32 else if t < 60 then 0x8F1BBCDC#32 else 0xCA62C1D6#32

/-- One round; all five assignments read the old values (R117). -/
def sha1Round (ws : List Word32) (v : Five) (t : Nat) : Five where
  a := rotl32 v.a 5 + roundFn t v.b v.c v.d + v.e + roundConst t + wordAt ws t
  b := v.a
  c := rotl32 v.b 30
  d := v.c
  e := v.d

/-- The working variables after the rounds `0 .. n - 1` (R118). -/
def sha1Rounds (ws : List Word32) (h : Five) (n : Nat) : Five := (List.range n).foldl (sha1Round ws) h

/-- The feed-forward addition, word by word modulo 2^32 (R118). -/
def addFive (h v : Five) : Five where
  a := h.a + v.a
  b := h.b + v.b
  c := h.c + v.c
  d := h.d + v.d
  e := h.e + v.e

/-- `COMPRESS(H, X)`: 80 rounds, then the addition of the old chaining value (R118). -/
def compress (h : Five) (x : List Byte) : Five := addFive h (sha1Rounds (schedule x) h 80)

/-- The initial value `IV` (R113). -/
def sha1IV : Five where
  a := 0x67452301#32
  b := 0xEFCDAB89#32
  c := 0x98BADCFE#32
  d := 0x10325476#32
  e := 0xC3D2E1F0#32

/-- The number of blocks of a message of `len` bytes, `((L + 8) div 64) + 1` (R111). -/
def blockCount (len : Nat) : Nat := (len + 8) / 64 + 1

/-- Block `n` of a padded message, `B[64n .. 64n + 64)` (R110). -/
def blockAt (bs : List Byte) (n : Nat) : List Byte := slice bs (64 * n) 64

/-- The chaining value after the first `n` blocks, in index order (R110). -/
def sha1Chain (bs : List Byte) (n : Nat) : Five := (List.range n).foldl (fun h k => compress h (blockAt bs k)) sha1IV

/-- The digest bytes of a chaining value: five words, `H0` first, each big-endian (R119). -/
def digestBytes (h : Five) : List Byte :=
  bytesBe h.a.toNat 4 ++ bytesBe h.b.toNat 4 ++ bytesBe h.c.toNat 4 ++ bytesBe h.d.toNat 4 ++ bytesBe h.e.toNat 4

/-- `SHA1(m)`, 20 bytes (R110). The spec's domain is `len(m) < 2^61`; above it the length field keeps its low 64 bits
(DESIGN CHOICE, log entry 9), where no command can reach. -/
def sha1 (m : List Byte) : List Byte := digestBytes (sha1Chain (pad m) (blockCount m.length))

end Sys2Proof.Machine
end

