-- ==== Sys2Proof/Machine/Hmac.lean ====
section
/-! DEFINITION. The function `HMAC_SHA1` (43_hmac.md R100 to R106), step 2 of `GO`. The spec writes it from general
knowledge and says so (93_implementation_defined.md G2; log entry 7). It is defined for the empty key too (R106); `GO`
never evaluates it there. -/

namespace Sys2Proof.Machine

/-- The key that is padded: a key longer than 64 bytes is first replaced by its SHA-1 digest (R101). -/
def shortKey (k : List Byte) : List Byte := if 64 < k.length then sha1 k else k

/-- `NORMKEY(k)`: the short key, zero-padded on the right to 64 bytes (R101). -/
def normKey (k : List Byte) : List Byte := shortKey k ++ rep 0#8 (64 - (shortKey k).length)

/-- `IKEY = K0 xor rep(0x36, 64)` (R102). -/
def innerKey (k : List Byte) : List Byte := xorByte (normKey k) 0x36#8

/-- `OKEY = K0 xor rep(0x5C, 64)` (R102). -/
def outerKey (k : List Byte) : List Byte := xorByte (normKey k) 0x5C#8

/-- `INNER = SHA1(IKEY || m)` (R103). -/
def innerHash (k m : List Byte) : List Byte := sha1 (innerKey k ++ m)

/-- `HMAC_SHA1(k, m) = SHA1(OKEY || INNER)`, all 20 bytes kept (R100, R104). -/
def hmacSha1 (k m : List Byte) : List Byte := sha1 (outerKey k ++ innerHash k m)

end Sys2Proof.Machine
end

