-- ==== Sys2Proof/Machine/Truncation.lean ====
section
/-! DEFINITION. The truncation and modulo pipeline, steps 3 to 7 of `GO` (45_hotp_truncation.md R130 to R137): offset
selector, extractor, sign-bit mask, modulo reducer, decimal formatter. Every value is unsigned. -/

namespace Sys2Proof.Machine

/-- `OFFSEL(D) = D[19] & 0x0F`, 4 bits (R130). -/
def offsel (d : List Byte) : BitVec 4 := (byteAt d 19 &&& 0x0F#8).setWidth 4

/-- `EXTRACT(D, o) = be32(D[o], D[o+1], D[o+2], D[o+3])` (R131). -/
def extract (d : List Byte) (o : BitVec 4) : Word32 :=
  be32 (byteAt d o.toNat) (byteAt d (o.toNat + 1)) (byteAt d (o.toNat + 2)) (byteAt d (o.toNat + 3))

/-- `MASK31(p) = p & 0x7FFFFFFF`, 31 bits (R132). -/
def mask31 (p : Word32) : BitVec 31 := (p &&& 0x7FFFFFFF#32).setWidth 31

/-- `MOD1M(t) = t mod 1,000,000` (R133). -/
def mod1m (t : BitVec 31) : Nat := t.toNat % 1000000

/-- `digit_k = (v div 10^(5-k)) mod 10`, `k = 0` the hundred-thousands digit (R134). -/
def decDigit (v k : Nat) : Nat := (v / 10 ^ (5 - k)) % 10

/-- The ASCII byte of a digit, `0x30 + digit` (R134). -/
def digitChar (n : Nat) : Byte := BitVec.ofNat 8 (0x30 + n)

/-- `DECFMT(v)`: six ASCII digits, zero-padded on the left (R134). -/
def decFmt (v : Nat) : List Byte := (List.range 6).map fun k => digitChar (decDigit v k)

/-- `VALUE` of a digest: steps 3 to 6 (R91, R135). -/
def truncValue (d : List Byte) : Nat := mod1m (mask31 (extract d (offsel d)))

/-- `TRUNCATE(D)`: the whole pipeline (R135). -/
def truncateDigest (d : List Byte) : List Byte := decFmt (truncValue d)

end Sys2Proof.Machine
end

