-- ==== Sys2Proof/Machine/Hotp.lean ====
section
/-! DEFINITION. The function `HOTP` (42_go_command.md R91) and its step 1, the counter serialiser (R92). A pure function of
the secret and the counter (R94). -/

namespace Sys2Proof.Machine

/-- `MSG = bytes_be(CTR, 8)`, always exactly 8 bytes, most significant first (R92). -/
def counterMsg (c : Word64) : List Byte := bytesBe c.toNat 8

/-- The 20-byte digest of steps 1 and 2 (R91). -/
def hotpDigest (k : List Byte) (c : Word64) : List Byte := hmacSha1 k (counterMsg c)

/-- `HOTP(k, c) = TRUNCATE(HMAC_SHA1(k, bytes_be(c, 8)))` (R91). -/
def hotp (k : List Byte) (c : Word64) : List Byte := truncateDigest (hotpDigest k c)

end Sys2Proof.Machine
end

