-- ==== Sys2Proof/Machine/Compute.lean ====
section
/-! DEFINITION. The compute command `GO` (42_go_command.md R90, R93). One atomic step; the order of work inside it is not
architectural (R96). -/

namespace Sys2Proof.Machine

/-- The loaded secret, `MemRead(KEY, 0, KLEN)` (R93). -/
def Engine.secret (e : Engine) : List Byte := e.memRead .key 0 e.klen

/-- The Code of the loaded operands, `HOTP(KEY[0 .. KLEN), CTR)` (R93). -/
def Engine.loadedCode (e : Engine) : List Byte := hotp e.secret e.ctr

/-- The success path before its response: the Code written, `VALID` set, the inputs wiped (R93). -/
def Engine.produceCode (e : Engine) : Engine := (e.memWrite .code 0 e.loadedCode).setValid.wipeInputs

/-- `GO` on the engine: with no usable secret everything is wiped and `InvalidSecret` raised (R90); else the Code is
produced (R93). -/
def Engine.go (e : Engine) : Reply :=
  if e.secretUnusable then e.zeroise.raise .invalidSecret else e.produceCode.ok 0x00#8

/-- `GO` (R90, R93). -/
def execGo (s : State) : Host.Outcome State Fault Refusal := s.reply s.toEngine.go

end Sys2Proof.Machine
end

