-- ==== Sys2Proof/Syntax.lean ====
section
/-! DEFINITION. The command set `HOTP-CMD v1` (30_encoding.md R53): one constructor per row of the opcode table, and the
shape of a row. -/

namespace Sys2Proof

/-- The three formats of R51: no operand, byte operand, index operand. -/
inductive Format where
  | z
  | b
  | x
deriving DecidableEq, Repr

/-- The seven commands with their operands (R53). Format B carries the whole operand byte, format X the 3-bit index, so
that the two reserved indexes 6 and 7 are instructions too: they decode, and `RDCH`'s own rule refuses them (R58). -/
inductive Instr where
  /-- `NOP`, format Z (40_system_commands.md R70). -/
  | nop
  /-- `CLR`, format Z (40_system_commands.md R71). -/
  | clr
  /-- `KEYB b`, format B (41_load_commands.md R80). -/
  | keyb (b : Byte)
  /-- `CTRB b`, format B (41_load_commands.md R81). -/
  | ctrb (b : Byte)
  /-- `GO`, format Z (42_go_command.md R90, R93). -/
  | go
  /-- `RDST`, format Z (46_read_commands.md R140). -/
  | rdst
  /-- `RDCH idx`, format X (46_read_commands.md R141). -/
  | rdch (idx : BitVec 3)
deriving DecidableEq, Repr

/-- A row of the opcode map: a word `w` selects the row when `(w & mask) = pattern` (R53). -/
structure OpRow where
  mnemonic : String
  format   : Format
  pattern  : Cmd
  mask     : Cmd
deriving DecidableEq, Repr

/-- Why a word is illegal: the two kinds of R56 and R58. Both execute the same way. -/
inductive IllegalWord where
  /-- The `op` field is none of the seven assigned values (R56). -/
  | unassignedOpcode (op : Byte)
  /-- The `op` field is assigned, and a bit the format wants zero is not (R58). -/
  | mustBeZeroBits (op imm : Byte)
deriving DecidableEq, Repr

end Sys2Proof
end

