-- ==== Sys2Proof/WellFormed.lean ====
section
/-! DEFINITION. Which instructions carry a legal operand value (30_encoding.md R51, R60). The widths of the operands are
their types; the one check left is the index of `RDCH`: 0 to 5 legal, 6 and 7 reserved. Decoding does NOT ask for
well-formedness: the reserved indexes decode and are refused by `RDCH` itself (R58). -/

namespace Sys2Proof

/-- The `CODE` index is one an assembler accepts (R60): 0 to 5. -/
def indexLegal (idx : BitVec 3) : Bool := decide (idx.toNat ≤ 5)

/-- The operand check of R51 and R60, for every format: Z and B have no reserved value (R58), X has two. The words of the
well-formed instructions are the 522 executable ones (R53). -/
def Instr.wf : Instr → Bool
  | .nop => true
  | .clr => true
  | .keyb _ => true
  | .ctrb _ => true
  | .go => true
  | .rdst => true
  | .rdch idx => indexLegal idx

end Sys2Proof
end

