-- ==== Sys2Proof/Decode.lean ====
section
/-! DEFINITION. Decoding of a command word, total and state-free (30_encoding.md R55), rejecting by name (R56, R58); then
the encoder (R53) and the opcode map as rows (R53). A command word is a 16-bit parallel value with no byte order (R50), so
decoding works on the word itself. -/

namespace Sys2Proof

/-- `op = cmd[15:8]` (R50). -/
def opField (w : Cmd) : Byte := w.extractLsb' 8 8

/-- `imm = cmd[7:0]`, used as it stands, never sign-extended (R50, R52). -/
def immField (w : Cmd) : Byte := w.extractLsb' 0 8

/-- `idx = imm[2:0]` of format X (R51, R52). -/
def idxField (imm : Byte) : BitVec 3 := imm.extractLsb' 0 3

/-- `imm[7:3]` of format X, which must be zero (R51). -/
def highField (imm : Byte) : BitVec 5 := imm.extractLsb' 3 5

/-- Format Z: the whole operand byte must be zero (R51, R58). -/
def decodeZ (i : Instr) (op imm : Byte) : Except IllegalWord Instr :=
  if imm = 0#8 then .ok i else .error (.mustBeZeroBits op imm)

/-- Format X: `imm[7:3]` must be zero, `imm[2:0]` is the index; 6 and 7 decode (R55, R58). -/
def decodeX (op imm : Byte) : Except IllegalWord Instr :=
  if highField imm = 0#5 then .ok (.rdch (idxField imm)) else .error (.mustBeZeroBits op imm)

/-- The decoder of R55, its case list in the spec's order. -/
def decodeFields (op imm : Byte) : Except IllegalWord Instr :=
  if op = 0x10#8 then decodeZ .nop op imm
  else if op = 0x11#8 then decodeZ .clr op imm
  else if op = 0x20#8 then .ok (.keyb imm)
  else if op = 0x21#8 then .ok (.ctrb imm)
  else if op = 0x30#8 then decodeZ .go op imm
  else if op = 0x40#8 then decodeZ .rdst op imm
  else if op = 0x41#8 then decodeX op imm
  else .error (.unassignedOpcode op)

/-- Decoding is total: every one of the 65,536 words gives one of the seven commands or `illegal`, and no state is read
(R55). -/
def decode (w : Cmd) : Except IllegalWord Instr := decodeFields (opField w) (immField w)

/-- The word made of an opcode and an operand byte: `op` in bits 15:8, `imm` in bits 7:0 (R50). -/
def packWord (op imm : Byte) : Cmd := op ++ imm

/-- The `op` field of each command (R53). -/
def Instr.op : Instr → Byte
  | .nop => 0x10#8
  | .clr => 0x11#8
  | .keyb _ => 0x20#8
  | .ctrb _ => 0x21#8
  | .go => 0x30#8
  | .rdst => 0x40#8
  | .rdch _ => 0x41#8

/-- The operand byte of each command, by its format (R51). -/
def Instr.imm : Instr → Byte
  | .nop => 0#8
  | .clr => 0#8
  | .keyb b => b
  | .ctrb b => b
  | .go => 0#8
  | .rdst => 0#8
  | .rdch idx => 0#5 ++ idx

/-- The encoder: the word of an instruction (R53, R60). -/
def encode (i : Instr) : Cmd := packWord i.op i.imm

/-- The opcode-map row of each command, letter for letter as R53 prints it. -/
def Instr.row : Instr → OpRow
  | .nop => ⟨"NOP", .z, 0x1000#16, 0xFFFF#16⟩
  | .clr => ⟨"CLR", .z, 0x1100#16, 0xFFFF#16⟩
  | .keyb _ => ⟨"KEYB", .b, 0x2000#16, 0xFF00#16⟩
  | .ctrb _ => ⟨"CTRB", .b, 0x2100#16, 0xFF00#16⟩
  | .go => ⟨"GO", .z, 0x3000#16, 0xFFFF#16⟩
  | .rdst => ⟨"RDST", .z, 0x4000#16, 0xFFFF#16⟩
  | .rdch _ => ⟨"RDCH", .x, 0x4100#16, 0xFFF8#16⟩

/-- The opcode map of R53, seven rows in the table's order. -/
def opcodeTable : List OpRow :=
  [Instr.row .nop, Instr.row .clr, Instr.row (.keyb 0), Instr.row (.ctrb 0), Instr.row .go, Instr.row .rdst,
    Instr.row (.rdch 0)]

/-- A word selects a row when `(w & mask) = match` (R53). -/
def OpRow.selects (r : OpRow) (w : Cmd) : Bool := w &&& r.mask == r.pattern

/-- The 16-bit word whose low `nbits` bits are those of `w`, the bits above them zero: how a word numbered as the opcode
table numbers it stands on the command port (R50: one length, no byte order). -/
def tableWord (nbits w : Nat) : Cmd := BitVec.ofNat 16 (w % 2 ^ nbits)

/-- What the decoder reads from an instruction whose bits are `w`, numbered as the opcode table numbers them. -/
def decodeTableWord (nbits w : Nat) : Option Instr :=
  match decode (tableWord nbits w) with
  | .ok i => some i
  | .error _ => none

end Sys2Proof
end

