-- ==== Sys2Proof/Machine/Operands.lean ====
section
/-! DEFINITION. The operand forms (30_encoding.md R51, R52) and the two effective addresses (41_load_commands.md R80,
46_read_commands.md R141). There is no register operand, no addressing mode and no operand that names state. -/

namespace Sys2Proof.Machine

/-- The format of each command (R51, R53). -/
def formatOf (i : Instr) : Format := i.row.format

/-- A format-B operand as it is pushed into a 64-bit register: `zext_64(b)` (41_load_commands.md R81). -/
def byteOperand64 (b : Byte) : Word64 := b.setWidth 64

/-- The effective address of `KEYB`: the first free byte, `KEY[KLEN]` (41_load_commands.md R80). -/
def Engine.pushIndex (e : Engine) : Nat := e.klen

/-- The effective address of `RDCH`: the index in its operand, unsigned (46_read_commands.md R141). -/
def codeIndex (idx : BitVec 3) : Nat := idx.toNat

/-- The index names a byte that `CODE` does not have (20_memory.md R32, 46_read_commands.md R141). -/
def indexReserved (idx : BitVec 3) : Bool := decide (5 < codeIndex idx)

end Sys2Proof.Machine
end

