-- ==== Sys2Proof/Machine/Load.lean ====
section
/-! DEFINITION. The load commands `KEYB` and `CTRB` (41_load_commands.md R80, R81). -/

namespace Sys2Proof.Machine

/-- One byte pushed at `KEY[KLEN]`, then `KLEN` incremented (R80, the success branch). -/
def Engine.pushKey (e : Engine) (b : Byte) : Engine :=
  { e.memWrite .key e.pushIndex [b] with klen := e.klen + 1 }

/-- `KEYB b` on an engine of the given `KEY_MAX`: append one byte to the secret, or set `KOVF` and fault when the buffer is
full (R80). -/
def Engine.keyb (c : Config) (b : Byte) (e : Engine) : Reply :=
  if e.keyFull c then e.setOverflow.raise .keyOverflow else (e.pushKey b).ok 0x00#8

/-- `KEYB b` (R80). -/
def execKeyb (b : Byte) (s : State) : Host.Outcome State Fault Refusal := s.reply (s.toEngine.keyb s.cfg b)

/-- One byte shifted into the counter from the low end, the old top byte lost (R81). -/
def Engine.shiftCounter (e : Engine) (b : Byte) : Engine := { e with ctr := (e.ctr <<< 8) ||| byteOperand64 b }

/-- `CTRB b` on the engine (R81). -/
def Engine.ctrb (b : Byte) (e : Engine) : Reply := (e.shiftCounter b).ok 0x00#8

/-- `CTRB b` (R81). -/
def execCtrb (b : Byte) (s : State) : Host.Outcome State Fault Refusal := s.reply (s.toEngine.ctrb b)

end Sys2Proof.Machine
end

