-- ==== Sys2Proof/Machine/Read.lean ====
section
/-! DEFINITION. The read commands `RDST` and `RDCH` (46_read_commands.md R140, R141). Neither changes any state element. -/

namespace Sys2Proof.Machine

/-- `RDST` on the engine: the status byte (R140). -/
def Engine.rdst (e : Engine) : Reply := e.ok e.status

/-- `RDST` (R140). -/
def execRdst (s : State) : Host.Outcome State Fault Refusal := s.reply s.toEngine.rdst

/-- `RDCH idx` on the engine: one character of the Code; the reserved indexes are checked first, then `VALID` (R141,
60_exceptions.md R159). -/
def Engine.rdch (idx : BitVec 3) (e : Engine) : Reply :=
  if indexReserved idx then e.raise .illegalCommand
  else if e.valid then e.ok (e.readByte .code (codeIndex idx))
  else e.raise .noCode

/-- `RDCH idx` (R141). -/
def execRdch (idx : BitVec 3) (s : State) : Host.Outcome State Fault Refusal := s.reply (s.toEngine.rdch idx)

end Sys2Proof.Machine
end

