-- ==== Sys2Proof/Machine/System.lean ====
section
/-! DEFINITION. The system commands `NOP` and `CLR` (40_system_commands.md R70, R71). -/

namespace Sys2Proof.Machine

/-- `NOP` on the engine: do nothing (R70). -/
def Engine.nop (e : Engine) : Reply := e.ok 0x00#8

/-- `NOP` (R70). -/
def execNop (s : State) : Host.Outcome State Fault Refusal := s.reply s.toEngine.nop

/-- `CLR` on the engine: zeroise all six elements (R71). -/
def Engine.clr (e : Engine) : Reply := e.zeroise.ok 0x00#8

/-- `CLR` (R71). -/
def execClr (s : State) : Host.Outcome State Fault Refusal := s.reply s.toEngine.clr

end Sys2Proof.Machine
end

