-- ==== Sys2Proof/Machine/Dispatch.lean ====
section
/-! DEFINITION. One arm per command: the meaning it calls. -/

namespace Sys2Proof.Machine

def exec (i : Instr) (s : State) : Host.Outcome State Fault Refusal :=
  match i with
  | .nop => Sys2Proof.Machine.execNop s
  | .clr => Sys2Proof.Machine.execClr s
  | .keyb b => Sys2Proof.Machine.execKeyb b s
  | .ctrb b => Sys2Proof.Machine.execCtrb b s
  | .go => Sys2Proof.Machine.execGo s
  | .rdst => Sys2Proof.Machine.execRdst s
  | .rdch idx => Sys2Proof.Machine.execRdch idx s

end Sys2Proof.Machine
end

