-- ==== Sys2Proof/Machine/Port.lean ====
section
/-! DEFINITION. The host's side of a step (00_scope.md R9, 70_reset_and_hazards.md R191): the next move of the host, and
what the engine does for it. The eight ports of R184 are abstracted to this, as R184 says (log entry 5). -/

namespace Sys2Proof.Machine

/-- An illegal word: `raise IllegalCommand` with no state change (30_encoding.md R56, R58). -/
def execIllegal (s : State) : Host.Outcome State Fault Refusal := s.reply (s.toEngine.raise .illegalCommand)

/-- One command word: decode, then the command's meaning, or the fault of an illegal word (30_encoding.md R55). -/
def execWord (w : Cmd) (s : State) : Host.Outcome State Fault Refusal :=
  match decode w with
  | .ok i => exec i s
  | .error _ => execIllegal s

/-- One host move (R191). Reset is taken at any time; a command issued before the first reset has no defined outcome
(R183, 93_implementation_defined.md U1) and is refused. -/
def runMove (m : HostMove) (s : State) : Host.Outcome State Fault Refusal :=
  match m with
  | .reset => .next s.applyReset
  | .command w => if s.resetSeen then execWord w s else .refused .beforeFirstReset

/-- The next host move is taken off the list and carried out. With no move to come nothing happens: "between host moves its
state does not change" (R191). -/
def State.nextMove (s : State) : Host.Outcome State Fault Refusal :=
  match s.moves with
  | [] => .next s
  | m :: rest => runMove m { s with moves := rest }

/-- The host will present the words of these commands next, in this order (R40, R191). -/
def State.sending (s : State) (cs : List Instr) : State :=
  { s with moves := cs.map (fun i => HostMove.command (encode i)) ++ s.moves }

/-- The host will present this word next, to an engine that has been reset. -/
def State.presenting (s : State) (w : Cmd) : State :=
  { s with moves := HostMove.command w :: s.moves, resetSeen := true }

end Sys2Proof.Machine
end

