-- ==== Sys2Proof/Machine/Step.lean ====
section
/-! DEFINITION. One step of the machine: one host move (70_reset_and_hazards.md R191). There is no program counter and no
fetch (10_state.md R16); the next command is whichever the host sends next. -/

namespace Sys2Proof.Machine

/-- One step: the host's next move and all it does, atomically (00_scope.md R9, 20_memory.md R37). -/
def step (s : State) : Host.Outcome State Fault Refusal := s.nextMove

/-- `s` with the word placed as the host's next move, so that the very next step runs it (log entry 2). -/
def State.withFetchWord (s : State) (nbits w : Nat) : State := s.presenting (tableWord nbits w)

end Sys2Proof.Machine
end

