-- ==== Sys2Proof/Machine/Engine.lean ====
section
/-! DEFINITION. The step of the engine as the spec has it (00_scope.md R9): a function of `KEY_MAX`, the six elements and one
command word, which are its arguments and not its state (10_state.md R24). -/

namespace Sys2Proof.Machine

/-- A decoded command on an engine of the given `KEY_MAX` (30_encoding.md R53, the column "semantics"). -/
def engineCommand (c : Config) (e : Engine) : Instr → Reply
  | .nop => e.nop
  | .clr => e.clr
  | .keyb b => e.keyb c b
  | .ctrb b => e.ctrb b
  | .go => e.go
  | .rdst => e.rdst
  | .rdch idx => e.rdch idx

/-- `step(S, cmd) = (S', rsp)`, total over all states and all 65,536 words; `KEY_MAX` is its parameter (R9, R6; 30_encoding.md
R55, R56). -/
def engineStep (c : Config) (e : Engine) (w : Cmd) : Reply :=
  match decode w with
  | .ok i => engineCommand c e i
  | .error _ => e.raise .illegalCommand

end Sys2Proof.Machine
end

