-- ==== Sys2Proof/Machine/Pseudo.lean ====
section
/-! DEFINITION. The pseudo-commands of 30_encoding.md R61: each expands to a fixed sequence of real commands and adds no
behaviour of its own. Operands are held as data, not as text (log entry 10). -/

namespace Sys2Proof.Machine

/-- The argument of `KEYS` or `KEYX` (R61): printable characters, or pairs of hex digits. -/
inductive KeyText where
  | keys (text : List Char)
  | keyx (pairs : List (BitVec 4 × BitVec 4))
deriving DecidableEq, Repr

/-- The pseudo-commands (R61). -/
inductive Pseudo where
  | load (k : KeyText)
  | ctr64 (v : Word64)
  | rdcode
  | hotp (k : KeyText) (v : Word64)
deriving DecidableEq, Repr

/-- A character `KEYS` may hold: printable ASCII 0x20 to 0x7E except the double quote, 0x22 (R61). -/
def charLegal (c : Char) : Bool := decide (0x20 ≤ c.toNat) && decide (c.toNat ≤ 0x7E) && c.toNat != 0x22

/-- The text of a `KEYS` argument is legal; a `KEYX` argument always is (R61). -/
def KeyText.wf : KeyText → Bool
  | .keys text => text.all charLegal
  | .keyx _ => true

/-- The well-formed pseudo-commands (R61). -/
def Pseudo.wf : Pseudo → Bool
  | .load k => k.wf
  | .ctr64 _ => true
  | .rdcode => true
  | .hotp k _ => k.wf

/-- The bytes an argument stands for: ASCII codes, or the values of the pairs of digits (R61). -/
def KeyText.bytes : KeyText → List Byte
  | .keys text => text.map fun c => BitVec.ofNat 8 c.toNat
  | .keyx pairs => pairs.map fun p => p.1 ++ p.2

/-- One `KEYB` per byte, left to right (R61). -/
def loadSecret (bs : List Byte) : List Instr := bs.map Instr.keyb

/-- `CTR64 v`: eight `CTRB` with the bytes of `bytes_be(v, 8)` in order (R61). -/
def loadCounter (v : Word64) : List Instr := (bytesBe v.toNat 8).map Instr.ctrb

/-- `RDCODE`: `RDCH 0` to `RDCH 5` (R61). -/
def readCode : List Instr := (List.range 6).map fun i => Instr.rdch (BitVec.ofNat 3 i)

/-- The sequence of one whole call: `CLR`, the secret, the counter, `GO`, `RDCODE` (R61, `HOTP k, v`). -/
def hotpCall (bs : List Byte) (v : Word64) : List Instr :=
  [Instr.clr] ++ loadSecret bs ++ loadCounter v ++ [Instr.go] ++ readCode

/-- The expansion of R61. -/
def Pseudo.expand : Pseudo → List Instr
  | .load k => loadSecret k.bytes
  | .ctr64 v => loadCounter v
  | .rdcode => readCode
  | .hotp k v => hotpCall k.bytes v

end Sys2Proof.Machine
end

