-- ==== Sys2Proof/Safety.lean ====
section
/-! DEFINITION. What a good state and a safe run are, in the terms the claims use. -/

namespace Sys2Proof.Machine

/-- The number the six characters of `CODE` spell, `CODE[0]` the hundred-thousands digit (10_state.md R22 item 6). -/
def spelledNumber (bs : List Byte) : Nat :=
  ((List.range 6).map fun i => ((byteAt bs i).toNat - 0x30) * 10 ^ (5 - i)).sum

/-- A byte that is an ASCII digit, 0x30 to 0x39 (10_state.md R15). -/
def isDigitByte (b : Byte) : Prop := 0x30 ≤ b.toNat ∧ b.toNat ≤ 0x39

/-- The six bytes of `CODE`. -/
def Engine.codeBytes (e : Engine) : List Byte := e.memRead .code 0 codeSize

/-- The invariants of 10_state.md R22, items 1 to 6, of an engine of the given `KEY_MAX`, with the constraint on that parameter
(00_scope.md R6) and the canonical form of the two buffers (the model's own, log entry 8). -/
structure EngineInv (c : Config) (e : Engine) : Prop where
  cfg_wf       : c.wf
  key_wf       : e.key.wf
  key_within   : e.key.within (Space.size c .key)
  code_wf      : e.code.wf
  code_within  : e.code.within (Space.size c .code)
  klen_le      : e.klen ≤ c.keyMax
  key_above    : ∀ a, e.klen ≤ a → e.readByte .key a = 0x00#8
  kovf_full    : e.kovf = true → e.klen = c.keyMax
  valid_digits : e.valid = true → ∀ i, i < codeSize → isDigitByte (e.readByte .code i)
  invalid_zero : e.valid = false → ∀ i, i < codeSize → e.readByte .code i = 0x00#8
  valid_range  : e.valid = true → spelledNumber e.codeBytes < 1000000

/-- The invariants of a state: those of its engine. -/
abbrev StateInv (s : State) : Prop := EngineInv s.cfg s.toEngine

/-- The premise of every claim about commands: reset has been applied at least once since power-up
(70_reset_and_hazards.md R183), and the invariants hold. -/
def Good (s : State) : Prop := s.resetSeen = true ∧ StateInv s

/-- `n` steps of the machine, stopping at a refusal: `n` host moves (70_reset_and_hazards.md R191). -/
def runSteps (n : Nat) (s : State) : Host.Outcome State Fault Refusal := Sys2Proof.core.run n s

/-- A safe run of `n` steps: it ends in a next state, neither in a fault nor in a refusal. -/
def SafeRun (n : Nat) (s : State) : Prop := ∃ t, runSteps n s = .next t

/-- The number a byte string spells, byte 0 the most significant (00_scope.md R8, 41_load_commands.md R83). -/
def bigEndianValue (bs : List Byte) : Nat :=
  ((List.range bs.length).map fun i => (byteAt bs i).toNat * 256 ^ (bs.length - 1 - i)).sum

/-- The commands that may stand between the bytes of a load (41_load_commands.md R82, R83). -/
def allowedWhileLoading : Instr → Bool
  | .nop => true
  | .clr => false
  | .keyb _ => true
  | .ctrb _ => true
  | .go => false
  | .rdst => true
  | .rdch _ => true

/-- The secret byte a command pushes (41_load_commands.md R80). -/
def secretByteOf : Instr → Option Byte
  | .nop => none
  | .clr => none
  | .keyb b => some b
  | .ctrb _ => none
  | .go => none
  | .rdst => none
  | .rdch _ => none

/-- The counter byte a command pushes (41_load_commands.md R81). -/
def counterByteOf : Instr → Option Byte
  | .nop => none
  | .clr => none
  | .keyb _ => none
  | .ctrb b => some b
  | .go => none
  | .rdst => none
  | .rdch _ => none

/-- Two engines alike in all but the contents of `KEY` and `CTR`, the operands no command reads back (10_state.md R11, R14).
Their hosts have made and been told the same. -/
structure AlikeButOperands (s t : State) : Prop where
  klen      : s.klen = t.klen
  kovf      : s.kovf = t.kovf
  code      : s.code = t.code
  valid     : s.valid = t.valid
  cfg       : s.cfg = t.cfg
  resetSeen : s.resetSeen = t.resetSeen
  moves     : s.moves = t.moves
  rsps      : s.rsps = t.rsps

/-- No `RDCH 0` to `RDCH 5` stands in the moves between a `GO` and the next `CLR` or reset, `fresh` saying that the moves start
after such a `GO`: no character of a Code that a `GO` among them made is read back (42_go_command.md R93, 46_read_commands.md
R141). -/
def readsNoNewCode (fresh : Bool) : List HostMove → Bool
  | [] => true
  | .reset :: ms => readsNoNewCode false ms
  | .command w :: ms =>
    if w.toNat = 0x3000 then readsNoNewCode true ms
    else if w.toNat = 0x1100 then readsNoNewCode false ms
    else if 0x4100 ≤ w.toNat ∧ w.toNat ≤ 0x4105 then !fresh && readsNoNewCode fresh ms
    else readsNoNewCode fresh ms

/-- The response words the engine can produce in a good state (30_encoding.md R54, corrected by 90_conflicts.md C7). -/
def producible : List Rsp :=
  [0x0000#16, 0x0001#16, 0x0002#16, 0x0003#16, 0x0006#16, 0x0007#16, 0x0030#16, 0x0031#16, 0x0032#16, 0x0033#16,
    0x0034#16, 0x0035#16, 0x0036#16, 0x0037#16, 0x0038#16, 0x0039#16, 0x0100#16, 0x0200#16, 0x0300#16, 0x0400#16]

end Sys2Proof.Machine
end

