-- ==== Sys2Proof/Certificates/Slice0/Obligations.lean ====
section
/-! DEFINITION. The statements for the provers, from the spec's numbered rules. -/

open Sys2Proof Sys2Proof.Machine

/-! ### Encoding -/

/-- Each instruction has one word and each word at most one instruction, at every operand value (R53, R55). -/
def Obligations.DecodeInvertsEncode : Prop :=
  ∀ (w : Cmd) (i : Instr), decode w = .ok i ↔ encode i = w

/-- R55, its eight answers, as arithmetic on the word: seven commands with their operand, or illegal, and an illegal word is
executed as `raise IllegalCommand` with no state change. -/
def Obligations.DecodeAnswersOneOfEight : Prop :=
  ∀ w : Cmd,
    (w.toNat = 0x1000 → decode w = .ok .nop) ∧
    (w.toNat = 0x1100 → decode w = .ok .clr) ∧
    (w.toNat / 256 = 0x20 → decode w = .ok (.keyb (BitVec.ofNat 8 w.toNat))) ∧
    (w.toNat / 256 = 0x21 → decode w = .ok (.ctrb (BitVec.ofNat 8 w.toNat))) ∧
    (w.toNat = 0x3000 → decode w = .ok .go) ∧
    (w.toNat = 0x4000 → decode w = .ok .rdst) ∧
    (w.toNat / 8 = 0x4100 / 8 → decode w = .ok (.rdch (BitVec.ofNat 3 w.toNat))) ∧
    (w.toNat ∉ [0x1000, 0x1100, 0x3000, 0x4000] → w.toNat / 256 ≠ 0x20 → w.toNat / 256 ≠ 0x21 →
      w.toNat / 8 ≠ 0x4100 / 8 →
      (∃ e, decode w = .error e) ∧ ∀ s : State, execWord w s = .next { s with rsps := s.rsps ++ [0x0200#16] })

/-- R53: a word selects the one row of the instruction it decodes to, and an illegal word selects no row; so the seven rows
are disjoint. -/
def Obligations.OpcodeRowsAreDisjoint : Prop :=
  ∀ w : Cmd, opcodeTable.filter (fun r => r.selects w) =
    match decode w with
    | .ok i => [i.row]
    | .error _ => []

/-- R53, R60: words written out bit by bit from the encodings decode to what they stand for. A sanity statement. -/
def Obligations.SampleWordsDecode : Prop :=
  decode 0b0001000000000000#16 = .ok .nop ∧ decode 0b0001000100000000#16 = .ok .clr ∧
  decode 0b0010000000110001#16 = .ok (.keyb 0x31#8) ∧ decode 0b0010000111111110#16 = .ok (.ctrb 0xFE#8) ∧
  decode 0b0011000000000000#16 = .ok .go ∧ decode 0b0100000000000000#16 = .ok .rdst ∧
  decode 0b0100000100000101#16 = .ok (.rdch 5#3)

/-! ### A step -/

/-- A step runs the decoded instruction: the host's next word, when it decodes to `i`, has the effect of `exec i`, with the
word taken off the host's list (R9, R40). The list of moves is the model's form of the command stream (log entry 2). -/
def Obligations.StepRunsDecodedCommand : Prop :=
  ∀ (s : State) (w : Cmd) (rest : List HostMove) (i : Instr), s.resetSeen = true → s.moves = .command w :: rest →
    decode w = .ok i → step s = exec i { s with moves := rest }

/-- R9, R24: what a command word does is the engine's own step, a function of `KEY_MAX`, the six elements and the word, with the
word taken off the host's list and the response handed to the host; the parameter is whatever the state around the engine
carries, for every value of it, and the rest of the command stream is not looked at. -/
def Obligations.StepIsTheEngineStep : Prop :=
  ∀ (c : Config) (e : Engine) (w : Cmd) (rest : List HostMove) (rs : List Rsp),
    step { toEngine := e, cfg := c, resetSeen := true, moves := .command w :: rest, rsps := rs } =
      .next { toEngine := (engineStep c e w).1, cfg := c, resetSeen := true, moves := rest,
              rsps := rs ++ [(engineStep c e w).2] }

/-- A word placed by `withFetchWord` is what the very next step runs. The model's own interface (log entry 2). -/
def Obligations.PlacedWordRunsNext : Prop :=
  ∀ (s : State) (i : Instr), step (s.withFetchWord 16 (encode i).toNat) = exec i { s with resetSeen := true }

/-- R56: a word with an unassigned opcode, whatever its operand and whatever the state, is answered 0x0200 and changes no
state element. -/
def Obligations.UnassignedOpcodeFaults : Prop :=
  ∀ (s : State) (w : Cmd) (rest : List HostMove), s.resetSeen = true → s.moves = .command w :: rest →
    w.toNat / 256 ∉ [0x10, 0x11, 0x20, 0x21, 0x30, 0x40, 0x41] →
    step s = .next { s with moves := rest, rsps := s.rsps ++ [0x0200#16] }

/-- R58: an assigned opcode with a reserved operand is answered 0x0200 and changes no state element: format Z with a
non-zero operand byte, `RDCH` with a bit of imm[7:3] set, and `RDCH` with index 6 or 7, which decodes all the same. Format B
has no reserved value. -/
def Obligations.ReservedOperandFaults : Prop :=
  (∀ (s : State) (w : Cmd) (rest : List HostMove), s.resetSeen = true → s.moves = .command w :: rest →
    (w.toNat / 256 ∈ [0x10, 0x11, 0x30, 0x40] ∧ w.toNat % 256 ≠ 0) ∨ (w.toNat / 256 = 0x41 ∧ 5 < w.toNat % 256) →
    step s = .next { s with moves := rest, rsps := s.rsps ++ [0x0200#16] }) ∧
  (∀ w : Cmd, (w.toNat / 256 ∈ [0x10, 0x11, 0x30, 0x40] ∧ w.toNat % 256 ≠ 0) ∨ (w.toNat / 256 = 0x41 ∧ 7 < w.toNat % 256) →
    ∃ e, decode w = .error e) ∧
  (∀ w : Cmd, w.toNat / 8 = 0x4100 / 8 → ∃ idx, decode w = .ok (.rdch idx)) ∧
  (∀ w : Cmd, w.toNat / 256 ∈ [0x20, 0x21] → ∃ i, decode w = .ok i)

/-- R191: between host moves the engine's state does not change. -/
def Obligations.NothingHappensBetweenMoves : Prop :=
  ∀ s : State, s.moves = [] → step s = .next s

/-- R180, R23: reset, at any time, before or after the first one, puts every element at its reset value, every byte of both
buffers reads 0x00, STATUS is 0x00, no response is issued. -/
def Obligations.ResetZeroisesEverything : Prop :=
  ∀ (s : State) (rest : List HostMove), s.moves = .reset :: rest →
    ∃ t, step s = .next t ∧ t.klen = 0 ∧ t.kovf = false ∧ t.ctr = 0#64 ∧ t.valid = false ∧ t.status = 0x00#8 ∧
      (∀ a, t.readByte .key a = 0x00#8) ∧ (∀ a, t.readByte .code a = 0x00#8) ∧ t.toEngine = Engine.reset ∧
      t.cfg = s.cfg ∧ t.resetSeen = true ∧ t.moves = rest ∧ t.rsps = s.rsps

/-- R183, U1: a command issued before the first reset has no defined outcome, and the model refuses it by name (the model's
choice among the spec's treatments, log entry 4). -/
def Obligations.CommandBeforeFirstResetIsRefused : Prop :=
  ∀ (s : State) (w : Cmd) (rest : List HostMove), s.resetSeen = false → s.moves = .command w :: rest →
    step s = .refused .beforeFirstReset

/-- R9: the outcome of a command word is a function of the parameter, the six elements and the word alone: two engines alike
in these, whatever their hosts have sent or been told before, end alike and answer with the same word. -/
def Obligations.OutcomeDependsOnElementsAndWord : Prop :=
  ∀ (s₁ s₂ : State) (w : Cmd) (rest₁ rest₂ : List HostMove), s₁.resetSeen = true → s₂.resetSeen = true →
    s₁.cfg = s₂.cfg → s₁.toEngine = s₂.toEngine → s₁.moves = .command w :: rest₁ → s₂.moves = .command w :: rest₂ →
    ∃ t₁ t₂ r, step s₁ = .next t₁ ∧ step s₂ = .next t₂ ∧ t₁.toEngine = t₂.toEngine ∧
      t₁.rsps = s₁.rsps ++ [r] ∧ t₂.rsps = s₂.rsps ++ [r] ∧ t₁.moves = rest₁ ∧ t₂.moves = rest₂ ∧
      t₁.cfg = s₁.cfg ∧ t₂.cfg = s₂.cfg

/-- R171: after the first reset no number of host moves ever stops the engine. -/
def Obligations.EngineNeverStops : Prop :=
  ∀ (n : Nat) (s : State), s.resetSeen = true → ∃ t, runSteps n s = .next t ∧ t.resetSeen = true

/-- R54: in a good state every one of the 65,536 words is answered by one response word of the listed set, bits 15:12 zero,
data zero on a fault. -/
def Obligations.EveryResponseIsProducible : Prop :=
  ∀ (s : State) (w : Cmd) (rest : List HostMove), Good s → s.moves = .command w :: rest →
    ∃ t r, step s = .next t ∧ t.rsps = s.rsps ++ [r] ∧ r ∈ producible ∧ r.toNat / 4096 = 0 ∧
      (rspFault r ≠ 0#4 → rspData r = 0x00#8)

/-! ### The commands -/

/-- R70: `NOP` answers 0x0000 in every state and changes nothing. Its word has a zero operand byte or is illegal. -/
def Obligations.NopChangesNothing : Prop :=
  encode .nop = 0x1000#16 ∧ (∀ w : Cmd, w.toNat / 256 = 0x10 → w.toNat % 256 ≠ 0 → ∃ e, decode w = .error e) ∧
    ∀ s : State, exec .nop s = .next { s with rsps := s.rsps ++ [0x0000#16] }

/-- R71: `CLR` answers 0x0000 and leaves the reset state; every byte of both buffers reads 0x00. -/
def Obligations.ClrGivesTheResetState : Prop :=
  encode .clr = 0x1100#16 ∧ (∀ w : Cmd, w.toNat / 256 = 0x11 → w.toNat % 256 ≠ 0 → ∃ e, decode w = .error e) ∧
    ∀ s : State, ∃ t, exec .clr s = .next t ∧ t.rsps = s.rsps ++ [0x0000#16] ∧
    t.klen = 0 ∧ t.kovf = false ∧ t.ctr = 0#64 ∧ t.valid = false ∧ (∀ a, t.readByte .key a = 0x00#8) ∧
    (∀ a, t.readByte .code a = 0x00#8) ∧ t.toEngine = Engine.reset ∧ t.cfg = s.cfg ∧ t.moves = s.moves ∧
    t.resetSeen = s.resetSeen

/-- R80: `KEYB b` with room stores `b` at the first free index and counts it; every other byte and element is unchanged. With
the buffer full it sets `KOVF`, answers 0x0400 and changes nothing else. -/
def Obligations.KeybAppendsOrOverflows : Prop :=
  ∀ (b : Byte) (s : State), s.key.wf →
    (encode (.keyb b)).toNat = 0x2000 + b.toNat ∧
    (s.klen < s.cfg.keyMax →
      ∃ t, exec (.keyb b) s = .next t ∧ t.readByte .key s.klen = b ∧
        (∀ a, a ≠ s.pushIndex → t.readByte .key a = s.readByte .key a) ∧ t.klen = s.klen + 1 ∧
        t.kovf = s.kovf ∧ t.ctr = s.ctr ∧ t.code = s.code ∧ t.valid = s.valid ∧ t.cfg = s.cfg ∧
        t.resetSeen = s.resetSeen ∧ t.moves = s.moves ∧ t.rsps = s.rsps ++ [0x0000#16]) ∧
    (s.cfg.keyMax ≤ s.klen →
      exec (.keyb b) s = .next { s with kovf := true, rsps := s.rsps ++ [0x0400#16] })

/-- R81: `CTRB b` shifts `b` into the counter from the low end, the old top byte is lost; it cannot fault and changes nothing
else. -/
def Obligations.CtrbShiftsOneByteIn : Prop :=
  ∀ (b : Byte) (s : State), (encode (.ctrb b)).toNat = 0x2100 + b.toNat ∧
    exec (.ctrb b) s =
      .next { s with ctr := BitVec.ofNat 64 (s.ctr.toNat * 256 + b.toNat), rsps := s.rsps ++ [0x0000#16] }

/-- R90: `GO` with no usable secret wipes all six elements and answers 0x0100; every byte of both buffers reads 0x00. -/
def Obligations.GoWithoutSecretWipes : Prop :=
  encode .go = 0x3000#16 ∧ (∀ w : Cmd, w.toNat / 256 = 0x30 → w.toNat % 256 ≠ 0 → ∃ e, decode w = .error e) ∧
    ∀ s : State, s.klen = 0 ∨ s.kovf = true →
    ∃ t, exec .go s = .next t ∧ t.rsps = s.rsps ++ [0x0100#16] ∧ t.klen = 0 ∧ t.kovf = false ∧ t.ctr = 0#64 ∧
      t.valid = false ∧ (∀ a, t.readByte .key a = 0x00#8) ∧ (∀ a, t.readByte .code a = 0x00#8) ∧
      t.toEngine = Engine.reset ∧ t.cfg = s.cfg ∧ t.moves = s.moves ∧ t.resetSeen = s.resetSeen

/-- R93, R91: `GO` with any secret of at least one byte and no overflow writes the six bytes of `HOTP(KEY[0 .. KLEN), CTR)`,
sets `VALID`, wipes its inputs and answers 0x0000; and `HOTP` is the composition of R91, the serialised counter the message of
the HMAC, its 20-byte digest the input of the truncation, stage by stage. -/
def Obligations.GoProducesTheCode : Prop :=
  (∀ (k : List Byte) (c : Word64), hotpDigest k c = hmacSha1 k (counterMsg c) ∧ (hotpDigest k c).length = 20 ∧
    hotp k c = truncateDigest (hotpDigest k c) ∧
    hotp k c = decFmt (mod1m (mask31 (extract (hotpDigest k c) (offsel (hotpDigest k c)))))) ∧
  ∀ s : State, s.code.wf → 1 ≤ s.klen → s.kovf = false →
    ∃ t, exec .go s = .next t ∧
      (∀ i, i < 6 → t.readByte .code i =
        byteAt (hotp ((List.range s.klen).map fun a => s.readByte .key a) s.ctr) i) ∧
      (∀ a, 6 ≤ a → t.readByte .code a = s.readByte .code a) ∧ t.valid = true ∧ (∀ a, t.readByte .key a = 0x00#8) ∧
      t.klen = 0 ∧ t.kovf = false ∧ t.ctr = 0#64 ∧ t.cfg = s.cfg ∧ t.resetSeen = s.resetSeen ∧ t.moves = s.moves ∧
      t.rsps = s.rsps ++ [0x0000#16]

/-- R90 (corner cases), R37: two `GO` in a row, the second always faults `InvalidSecret` and leaves the reset state. -/
def Obligations.SecondGoAlwaysFaults : Prop :=
  ∀ s : State, ∃ t u, exec .go s = .next t ∧ exec .go t = .next u ∧ u.rsps = t.rsps ++ [0x0100#16] ∧
    u.toEngine = Engine.reset

/-- R140, R18: `RDST` answers the status byte, bit 0 `VALID`, bit 1 key not empty, bit 2 `KOVF`, bits 15:3 zero, and changes
nothing. -/
def Obligations.RdstReportsStatus : Prop :=
  encode .rdst = 0x4000#16 ∧ (∀ w : Cmd, w.toNat / 256 = 0x40 → w.toNat % 256 ≠ 0 → ∃ e, decode w = .error e) ∧
    ∀ s : State,
    exec .rdst s = .next { s with rsps := s.rsps ++
      [BitVec.ofNat 16 (4 * s.kovf.toNat + 2 * (decide (s.klen ≠ 0)).toNat + s.valid.toNat)] }

/-- R141: `RDCH idx` answers 0x0200 for the reserved indexes in every state, else 0x0300 when there is no Code, else the byte
of the Code; it changes nothing on any path. -/
def Obligations.RdchReadsOneCharacter : Prop :=
  (∀ w : Cmd, w.toNat / 256 = 0x41 → 7 < w.toNat % 256 → ∃ e, decode w = .error e) ∧
  ∀ (idx : BitVec 3) (s : State), (encode (.rdch idx)).toNat = 0x4100 + idx.toNat ∧
    exec (.rdch idx) s = .next { s with rsps := s.rsps ++
      [if 5 < idx.toNat then 0x0200#16 else if s.valid = false then 0x0300#16
        else (s.readByte .code idx.toNat).setWidth 16] }

/-- R37: `NOP`, `RDST` and `RDCH` have no side effect, and the same command twice gives the same response. -/
def Obligations.ReadingTwiceGivesTheSame : Prop :=
  ∀ (i : Instr) (s : State), (i = .nop ∨ i = .rdst ∨ ∃ idx, i = .rdch idx) →
    ∃ t u r, exec i s = .next t ∧ exec i t = .next u ∧ t.rsps = s.rsps ++ [r] ∧ u.rsps = t.rsps ++ [r] ∧
      t.toEngine = s.toEngine ∧ u.toEngine = s.toEngine

/-- R15: only `GO` and `CLR` change the Code or `VALID`; under every other command a Code outlives what follows. -/
def Obligations.CodeChangesOnlyByGoAndClr : Prop :=
  ∀ (i : Instr) (s : State), i ≠ .go → i ≠ .clr →
    ∃ t, exec i s = .next t ∧ t.valid = s.valid ∧ ∀ a, t.readByte .code a = s.readByte .code a

/-- R13, R17: `KOVF` is set only by a `KEYB` that finds the buffer full, and cleared only by `GO` and `CLR`. -/
def Obligations.OverflowFlagIsSticky : Prop :=
  ∀ (i : Instr) (s : State), ∃ t, exec i s = .next t ∧
    (s.kovf = false → t.kovf = true → (∃ b, i = .keyb b) ∧ s.cfg.keyMax ≤ s.klen) ∧
    (s.kovf = true → t.kovf = false → i = .go ∨ i = .clr)

/-- R182: the outcomes of the seven commands in the reset state of every engine the spec allows. -/
def Obligations.OutcomesInTheResetState : Prop :=
  ∀ c : Config, c.wf →
    (∃ t, exec .nop { State.reset with cfg := c } = .next t ∧ t.rsps = [0x0000#16]) ∧
    (∃ t, exec .clr { State.reset with cfg := c } = .next t ∧ t.rsps = [0x0000#16]) ∧
    (∀ b, ∃ t, exec (.keyb b) { State.reset with cfg := c } = .next t ∧ t.rsps = [0x0000#16] ∧ t.klen = 1) ∧
    (∀ b, ∃ t, exec (.ctrb b) { State.reset with cfg := c } = .next t ∧ t.rsps = [0x0000#16]) ∧
    (∃ t, exec .go { State.reset with cfg := c } = .next t ∧ t.rsps = [0x0100#16]) ∧
    (∃ t, exec .rdst { State.reset with cfg := c } = .next t ∧ t.rsps = [0x0000#16]) ∧
    ∀ idx : BitVec 3, idx.toNat ≤ 5 →
      ∃ t, exec (.rdch idx) { State.reset with cfg := c } = .next t ∧ t.rsps = [0x0300#16]

/-! ### Faults -/

/-- R150, R159: the fault code of every word in every state: decoding first, then the operand, then the state condition; a
faulting response is the code over a zero byte. -/
def Obligations.FaultCodeOfEveryWord : Prop :=
  ∀ (s : State) (w : Cmd) (rest : List HostMove), s.resetSeen = true → s.klen ≤ s.cfg.keyMax →
    s.moves = .command w :: rest →
    ∃ t r c, step s = .next t ∧ t.rsps = s.rsps ++ [r] ∧ (rspFault r).toNat = c ∧ (c ≠ 0 → r.toNat = 256 * c) ∧
      c = if ¬ ((w.toNat / 256 ∈ [0x10, 0x11, 0x30, 0x40] ∧ w.toNat % 256 = 0) ∨ w.toNat / 256 ∈ [0x20, 0x21] ∨
            (w.toNat / 256 = 0x41 ∧ w.toNat % 256 ≤ 5)) then 2
          else if w.toNat / 256 = 0x30 ∧ (s.klen = 0 ∨ s.kovf = true) then 1
          else if w.toNat / 256 = 0x41 ∧ s.valid = false then 3
          else if w.toNat / 256 = 0x20 ∧ s.klen = s.cfg.keyMax then 4
          else 0

/-- R161: what each fault changes: everything to its reset value for `InvalidSecret`, nothing for `IllegalCommand` and
`NoCode`, `KOVF` alone for `KeyOverflow`. -/
def Obligations.FaultsChangeWhatTheTableLists : Prop :=
  ∀ (s : State) (w : Cmd) (rest : List HostMove), Good s → s.moves = .command w :: rest →
    ∃ t r, step s = .next t ∧ t.rsps = s.rsps ++ [r] ∧
      (rspFault r = 1#4 → t.toEngine = Engine.reset) ∧
      (rspFault r = 2#4 → t.toEngine = s.toEngine) ∧
      (rspFault r = 3#4 → t.toEngine = s.toEngine ∧ s.valid = false) ∧
      (rspFault r = 4#4 → t.toEngine = { s.toEngine with kovf := true } ∧ s.klen = s.cfg.keyMax)

/-! ### Invariants -/

/-- R23, R22: the reset state of every engine the spec allows meets the invariants. -/
def Obligations.ResetStateMeetsInv : Prop :=
  ∀ c : Config, c.wf → StateInv { State.reset with cfg := c }

/-- R22: every step, whatever the host does, keeps the invariants. -/
def Obligations.StepKeepsInv : Prop :=
  ∀ s t : State, StateInv s → step s = .next t → StateInv t

/-- R22: in every state reachable from reset, on every engine, by any sequence of commands and resets, the invariants hold.
-/
def Obligations.ReachableStatesMeetInv : Prop :=
  ∀ (c : Config) (ms : List HostMove) (n : Nat) (t : State), c.wf →
    runSteps n { State.reset with cfg := c, moves := ms } = .next t → StateInv t

/-- R18, R22 item 3: STATUS reads one of six values. -/
def Obligations.StatusReadsSixValues : Prop :=
  ∀ s : State, StateInv s → s.status.toNat ∈ [0x00, 0x01, 0x02, 0x03, 0x06, 0x07]

/-- R6, R24: the capacity of the key buffer is a parameter: no step writes it. -/
def Obligations.NoStepWritesTheParameter : Prop :=
  ∀ (n : Nat) (s t : State), runSteps n s = .next t → t.cfg = s.cfg

/-- The canonical form means what it should: two buffers in it that read alike everywhere are the same data (log entry 8).
-/
def Obligations.CanonicalBuffersAreDetermined : Prop :=
  ∀ m m' : Memory, m.wf → m'.wf → (∀ a, m.read a = m'.read a) → m = m'

/-! ### Sequences of commands -/

/-- R82: loading a secret, with any `CTRB`, `NOP`, `RDST` or `RDCH` between its bytes: the first `KEY_MAX` bytes are stored in
order and answered 0x0000, every further one is answered 0x0400 and sets `KOVF`. -/
def Obligations.LoadingASecret : Prop :=
  ∀ (s : State) (cs : List Instr), s.resetSeen = true → s.key.wf → s.klen = 0 → s.kovf = false →
    (∀ i ∈ cs, allowedWhileLoading i = true) →
    ∃ t rs, runSteps cs.length (s.sending cs) = .next t ∧ t.moves = s.moves ∧ t.rsps = s.rsps ++ rs ∧
      rs.length = cs.length ∧ t.klen = min (cs.filterMap secretByteOf).length s.cfg.keyMax ∧
      (∀ a, a < t.klen → t.readByte .key a = byteAt (cs.filterMap secretByteOf) a) ∧
      t.kovf = decide (s.cfg.keyMax < (cs.filterMap secretByteOf).length) ∧
      (∀ n b, cs[n]? = some (.keyb b) → rs[n]? =
        some (if ((cs.take n).filterMap secretByteOf).length < s.cfg.keyMax then 0x0000#16 else 0x0400#16))

/-- R83: loading a counter from zero, with any `KEYB`, `NOP`, `RDST` or `RDCH` between its bytes, leaves the number its bytes
spell, modulo 2^64; eight bytes are byte for byte the message `GO` builds. -/
def Obligations.LoadingACounter : Prop :=
  ∀ (s : State) (cs : List Instr), s.resetSeen = true → s.ctr = 0#64 → (∀ i ∈ cs, allowedWhileLoading i = true) →
    ∃ t, runSteps cs.length (s.sending cs) = .next t ∧
      t.ctr.toNat = bigEndianValue (cs.filterMap counterByteOf) % 2 ^ 64 ∧
      ((cs.filterMap counterByteOf).length = 8 → counterMsg t.ctr = cs.filterMap counterByteOf)

/-- R61, R81: `CTR64 v` loads `v` whatever the counter held before. -/
def Obligations.EightPushesReplaceTheCounter : Prop :=
  ∀ (s : State) (v : Word64), s.resetSeen = true →
    ∃ t, runSteps 8 (s.sending (Pseudo.ctr64 v).expand) = .next t ∧
      t = { s with ctr := v, rsps := s.rsps ++ List.replicate 8 0x0000#16 }

/-- R142: with a Code, `RDCODE` returns its six bytes in order, all with fault field 0 and all ASCII digits; after a `GO` that
produced it they spell its `VALUE`. -/
def Obligations.ReadingAWholeCode : Prop :=
  (∀ s : State, Good s → s.valid = true →
    ∃ t, runSteps 6 (s.sending Pseudo.rdcode.expand) = .next t ∧
      t = { s with rsps := s.rsps ++ s.codeBytes.map (fun b => b.setWidth 16) } ∧ ∀ b ∈ s.codeBytes, isDigitByte b) ∧
  (∀ s : State, Good s → 1 ≤ s.klen → s.kovf = false →
    ∃ t, exec .go s = .next t ∧ t.valid = true ∧ spelledNumber t.codeBytes = truncValue (hotpDigest s.secret s.ctr))

/-- R61: the headline. From ANY state after the first reset, whatever an earlier user left behind, the sequence `HOTP k, v`
with a secret of 1 to `KEY_MAX` bytes is answered by zeros and then by the six characters of `HOTP(k, v)`, and leaves no
secret and no counter. -/
def Obligations.HotpCallReturnsTheCode : Prop :=
  ∀ (s : State) (k : KeyText) (v : Word64), s.resetSeen = true → 1 ≤ k.bytes.length →
    k.bytes.length ≤ s.cfg.keyMax →
    ∃ t, runSteps (Pseudo.hotp k v).expand.length (s.sending (Pseudo.hotp k v).expand) = .next t ∧
      t.rsps = s.rsps ++ List.replicate (k.bytes.length + 10) 0x0000#16 ++
        (hotp k.bytes v).map (fun b => b.setWidth 16) ∧
      t.klen = 0 ∧ t.kovf = false ∧ t.ctr = 0#64 ∧ t.valid = true ∧ (∀ a, t.readByte .key a = 0x00#8) ∧
      t.codeBytes = hotp k.bytes v ∧ t.moves = s.moves ∧ t.cfg = s.cfg

/-! ### What the Code depends on, and what leaks -/

/-- R94: the Code is a function of `KEY[0 .. KLEN)` and `CTR` alone: not of `KEY_MAX`, not of the bytes of `KEY` above `KLEN`,
not of the old Code or `VALID`, not of anything the host did before. -/
def Obligations.CodeDependsOnSecretAndCounterOnly : Prop :=
  ∀ s₁ s₂ : State, s₁.code.wf → s₂.code.wf → 1 ≤ s₁.klen → s₁.klen = s₂.klen → s₁.kovf = false → s₂.kovf = false →
    s₁.ctr = s₂.ctr → (∀ a, a < s₁.klen → s₁.readByte .key a = s₂.readByte .key a) →
    ∃ t₁ t₂, exec .go s₁ = .next t₁ ∧ exec .go s₂ = .next t₂ ∧ t₁.valid = t₂.valid ∧
      ∀ i, i < 6 → t₁.readByte .code i = t₂.readByte .code i

/-- R97, R11, R14: nothing of `KEY` or `CTR` leaves the engine but through the characters of a Code read back. Two engines
alike but for the contents of `KEY` and `CTR`, whose hosts make the same moves, commands and resets in any order and any number
of `GO` among them, answer every command alike, as long as no `RDCH 0` to `RDCH 5` stands between a `GO` and the next `CLR` or
reset. -/
def Obligations.OperandsLeakOnlyThroughTheCode : Prop :=
  ∀ (s₁ s₂ : State) (ms : List HostMove), s₁.resetSeen = true → AlikeButOperands s₁ s₂ → s₁.moves = ms →
    readsNoNewCode false ms = true →
    ∃ t₁ t₂, runSteps ms.length s₁ = .next t₁ ∧ runSteps ms.length s₂ = .next t₂ ∧ t₁.rsps = t₂.rsps ∧
      t₁.klen = t₂.klen ∧ t₁.kovf = t₂.kovf ∧ t₁.valid = t₂.valid

/-! ### The functions inside GO -/

/-- R92: the message handed to HMAC is always 8 bytes, and byte `i` of it is `CTR[63 - 8i : 56 - 8i]`. -/
def Obligations.CounterMessageIsBigEndian : Prop :=
  ∀ c : Word64, (counterMsg c).length = 8 ∧ (∀ i, i < 8 → byteAt (counterMsg c) i = c.extractLsb' (56 - 8 * i) 8) ∧
    ∀ k : List Byte, hotpDigest k c = hmacSha1 k (counterMsg c)

/-- R111: the padding, for a message in the domain of R110: the message, 0x80, `(55 - L) mod 64` zero bytes, the bit length in 8 big-endian bytes; the whole is the
smallest multiple of 64 that is at least `L + 9`. -/
def Obligations.PaddingLayout : Prop :=
  ∀ m : List Byte, m.length < 2 ^ 61 → ∃ (z : Nat) (len : List Byte),
    pad m = m ++ [0x80#8] ++ List.replicate z 0x00#8 ++ len ∧ (z : Int) = (55 - (m.length : Int)) % 64 ∧
    len.length = 8 ∧ bigEndianValue len = 8 * m.length ∧
    (pad m).length = 64 * ((m.length + 8) / 64 + 1) ∧ m.length + 9 ≤ (pad m).length ∧
    (pad m).length < m.length + 9 + 64

/-- R112: word `j` of a block is its four bytes from `4j` on, big-endian. -/
def Obligations.BlockWordsAreBigEndian : Prop :=
  ∀ (x : List Byte) (j : Nat), j < 16 → (wordAt (schedule x) j).toNat =
    (byteAt x (4 * j)).toNat * 2 ^ 24 + (byteAt x (4 * j + 1)).toNat * 2 ^ 16 + (byteAt x (4 * j + 2)).toNat * 2 ^ 8 +
      (byteAt x (4 * j + 3)).toNat

/-- R114: the message schedule: the block's 16 words, then the recurrence with the rotation by 1. -/
def Obligations.ScheduleRecurrence : Prop :=
  ∀ x : List Byte, (∀ j, j < 16 → wordAt (schedule x) j = blockWord x j) ∧
    ∀ t, 16 ≤ t → t < 80 → wordAt (schedule x) t = (wordAt (schedule x) (t - 3) ^^^ wordAt (schedule x) (t - 8) ^^^
      wordAt (schedule x) (t - 14) ^^^ wordAt (schedule x) (t - 16)).rotateLeft 1

/-- R8, R121: `ROTL32` moves bits out of the top into the bottom and loses none. -/
def Obligations.RotationLosesNoBit : Prop :=
  ∀ (x : Word32) (n i : Nat), 0 < n → n < 32 → i < 32 → (rotl32 x n).getLsbD ((i + n) % 32) = x.getLsbD i

/-- R115: the round function by round number, and the equivalent forms of `Ch` and `Maj`, bit for bit equal. -/
def Obligations.RoundFunctionForms : Prop :=
  ∀ b c d : Word32, chFn b c d = d ^^^ (b &&& (c ^^^ d)) ∧ majFn b c d = (b &&& c) ||| (d &&& (b ||| c)) ∧
    majFn b c d = (b &&& c) ^^^ (b &&& d) ^^^ (c &&& d) ∧
    (∀ t, t < 20 → roundFn t b c d = (b &&& c) ||| (~~~b &&& d)) ∧
    (∀ t, 20 ≤ t → t < 40 → roundFn t b c d = b ^^^ c ^^^ d) ∧
    (∀ t, 40 ≤ t → t < 60 → roundFn t b c d = (b &&& c) ||| (b &&& d) ||| (c &&& d)) ∧
    (∀ t, 60 ≤ t → t < 80 → roundFn t b c d = b ^^^ c ^^^ d)

/-- R110, R113, R116, R117, R118: SHA-1 as its recurrences: the blocks of the padded message in index order from the initial
value, the 80 rounds of a block with their constants, each round reading the old values, and the final addition. -/
def Obligations.Sha1Recurrences : Prop :=
  (∀ m : List Byte, sha1 m = digestBytes (sha1Chain (pad m) ((pad m).length / 64))) ∧
  (∀ bs : List Byte, sha1Chain bs 0 = ⟨0x67452301#32, 0xEFCDAB89#32, 0x98BADCFE#32, 0x10325476#32, 0xC3D2E1F0#32⟩ ∧
    ∀ n, sha1Chain bs (n + 1) = compress (sha1Chain bs n) ((bs.drop (64 * n)).take 64)) ∧
  (∀ (h : Five) (x : List Byte), ∃ v : Nat → Five, v 0 = h ∧
    (∀ t, t < 80 → v (t + 1) =
      ⟨(v t).a.rotateLeft 5 + roundFn t (v t).b (v t).c (v t).d + (v t).e +
          [0x5A827999#32, 0x6ED9EBA1#32, 0x8F1BBCDC#32, 0xCA62C1D6#32].getD (t / 20) 0#32 + wordAt (schedule x) t,
        (v t).a, (v t).b.rotateLeft 30, (v t).c, (v t).d⟩) ∧
    compress h x = ⟨h.a + (v 80).a, h.b + (v 80).b, h.c + (v 80).c, h.d + (v 80).d, h.e + (v 80).e⟩)

/-- R119: the digest bytes of a chaining value, `DIGEST[4i + j] = (H_i >> (24 - 8j)) & 0xFF`; so `DIGEST[19]` is the low byte
of `H4` and the offset is its low nibble. -/
def Obligations.DigestBytesOfTheChain : Prop :=
  ∀ h : Five, (digestBytes h).length = 20 ∧
    (∀ i j, i < 5 → j < 4 → byteAt (digestBytes h) (4 * i + j) =
      (wordAt [h.a, h.b, h.c, h.d, h.e] i >>> (24 - 8 * j)).setWidth 8) ∧
    byteAt (digestBytes h) 19 = h.e.setWidth 8 ∧ (offsel (digestBytes h)).toNat = h.e.toNat % 16

/-- R101: the normalised key: 64 bytes, a short key padded with zeros, a long one replaced by its digest first. So trailing
zero bytes of a short key, and hashing a long key beforehand, change no HMAC. -/
def Obligations.KeyNormalisation : Prop :=
  ∀ k m : List Byte, (normKey k).length = 64 ∧
    (k.length ≤ 64 → ∀ i, i < 64 → byteAt (normKey k) i = if i < k.length then byteAt k i else 0x00#8) ∧
    (64 < k.length → ∀ i, i < 64 → byteAt (normKey k) i = if i < 20 then byteAt (sha1 k) i else 0x00#8) ∧
    (∀ n, k.length + n ≤ 64 → hmacSha1 (k ++ List.replicate n 0x00#8) m = hmacSha1 k m) ∧
    (64 < k.length → hmacSha1 k m = hmacSha1 (sha1 k) m)

/-- R105: the two hashes inside `GO` and their padded inputs, byte for byte; a third hash, of the secret, only above 64 bytes,
and its block count. -/
def Obligations.HashInputsInsideGo : Prop :=
  ∀ (k : List Byte) (c : Word64),
    hotpDigest k c = sha1 (outerKey k ++ innerHash k (counterMsg c)) ∧
    innerHash k (counterMsg c) = sha1 (innerKey k ++ counterMsg c) ∧
    pad (innerKey k ++ counterMsg c) = innerKey k ++ counterMsg c ++ [0x80#8] ++ List.replicate 47 0x00#8 ++
      [0x00#8, 0x00#8, 0x00#8, 0x00#8, 0x00#8, 0x00#8, 0x02#8, 0x40#8] ∧
    pad (outerKey k ++ innerHash k (counterMsg c)) = outerKey k ++ innerHash k (counterMsg c) ++ [0x80#8] ++
      List.replicate 35 0x00#8 ++ [0x00#8, 0x00#8, 0x00#8, 0x00#8, 0x00#8, 0x00#8, 0x02#8, 0xA0#8] ∧
    (innerKey k).length = 64 ∧ (outerKey k).length = 64 ∧ (innerHash k (counterMsg c)).length = 20 ∧
    (k.length ≤ 64 → normKey k = k ++ List.replicate (64 - k.length) 0x00#8) ∧
    (64 < k.length → normKey k = sha1 k ++ List.replicate 44 0x00#8) ∧
    (pad k).length = 64 * ((k.length + 8) / 64 + 1)

/-- R100, R102, R103, R104: the two pads byte by byte and the nesting of the two hashes. -/
def Obligations.HmacPadsAndNesting : Prop :=
  ∀ k m : List Byte, hmacSha1 k m = sha1 (outerKey k ++ sha1 (innerKey k ++ m)) ∧ (hmacSha1 k m).length = 20 ∧
    (innerKey k).length = 64 ∧ (outerKey k).length = 64 ∧
    ∀ i, i < 64 → byteAt (innerKey k) i = byteAt (normKey k) i ^^^ 0x36#8 ∧
      byteAt (outerKey k) i = byteAt (normKey k) i ^^^ 0x5C#8

/-- R131, R130: the window: four bytes from the offset on, big-endian; the offset is the low nibble of byte 19 and the window
never leaves the first 19 bytes. -/
def Obligations.ExtractorWindow : Prop :=
  ∀ (d : List Byte) (o : BitVec 4), (extract d o).toNat =
      (byteAt d o.toNat).toNat * 2 ^ 24 + (byteAt d (o.toNat + 1)).toNat * 2 ^ 16 +
        (byteAt d (o.toNat + 2)).toNat * 2 ^ 8 + (byteAt d (o.toNat + 3)).toNat ∧
    o.toNat + 3 ≤ 18 ∧ (offsel d).toNat = (byteAt d 19).toNat % 16

/-- R132, R133: the mask drops bit 31 alone, and the reducer gives the remainder by one million. -/
def Obligations.MaskAndReduce : Prop :=
  (∀ p : Word32, (mask31 p).toNat = p.toNat % 2 ^ 31 ∧ ∀ i, i < 31 → (mask31 p).getLsbD i = p.getLsbD i) ∧
  ∀ t : BitVec 31, mod1m t = t.toNat % 1000000 ∧ mod1m t ≤ 999999

/-- R134, R136: the digits of the formatter; the laws of the pipeline: fixed width, digits, range, padding, round trip. -/
def Obligations.PipelineLaws : Prop :=
  (∀ d : List Byte, (truncateDigest d).length = 6 ∧ (∀ b ∈ truncateDigest d, isDigitByte b) ∧
    spelledNumber (truncateDigest d) = truncValue d ∧ truncValue d ≤ 999999) ∧
  decFmt 42 = [0x30#8, 0x30#8, 0x30#8, 0x30#8, 0x34#8, 0x32#8] ∧
  decFmt 999999 = [0x39#8, 0x39#8, 0x39#8, 0x39#8, 0x39#8, 0x39#8] ∧
  ∀ v, v ≤ 999999 → spelledNumber (decFmt v) = v ∧ (decFmt v).length = 6 ∧
    ∀ k, k < 6 → (byteAt (decFmt v) k).toNat = 0x30 + v / 10 ^ (5 - k) % 10

/-- R135: the pipeline is the composition of its five stages; it reads the low nibble of byte 19 and the four bytes of the
window, and ignores everything else. -/
def Obligations.PipelineReadsTheWindowOnly : Prop :=
  (∀ d : List Byte, truncateDigest d = decFmt (mod1m (mask31 (extract d (offsel d))))) ∧
  ∀ d d' : List Byte, (byteAt d 19).toNat % 16 = (byteAt d' 19).toNat % 16 →
    (∀ j, j < 4 → byteAt d ((byteAt d 19).toNat % 16 + j) = byteAt d' ((byteAt d 19).toNat % 16 + j)) →
    truncateDigest d = truncateDigest d'
end

