-- ==== Sys2Proof/Laws/Encoding.lean ====
section
/-! SUPPORT. The fields of a word and the word of two fields, as numbers and as bit vectors. -/

namespace Sys2Proof

theorem toNat_opField (w : Cmd) : (opField w).toNat = w.toNat / 256 := by
  simp only [opField, BitVec.extractLsb'_toNat, Nat.shiftRight_eq_div_pow]
  omega

theorem toNat_immField (w : Cmd) : (immField w).toNat = w.toNat % 256 := by
  simp [immField, BitVec.extractLsb'_toNat]

theorem toNat_packWord (op imm : Byte) : (packWord op imm).toNat = op.toNat * 256 + imm.toNat := by
  have h : (packWord op imm).toNat = op.toNat <<< 8 ||| imm.toNat := BitVec.toNat_append op imm
  rw [h, ← Nat.shiftLeft_add_eq_or_of_lt imm.isLt, Nat.shiftLeft_eq]

@[simp] theorem opField_packWord (op imm : Byte) : opField (packWord op imm) = op := by
  apply BitVec.eq_of_toNat_eq
  rw [toNat_opField, toNat_packWord]
  omega

@[simp] theorem immField_packWord (op imm : Byte) : immField (packWord op imm) = imm := by
  apply BitVec.eq_of_toNat_eq
  rw [toNat_immField, toNat_packWord]
  omega

@[simp] theorem packWord_fields (w : Cmd) : packWord (opField w) (immField w) = w := by
  apply BitVec.eq_of_toNat_eq
  rw [toNat_packWord, toNat_opField, toNat_immField]
  omega

@[simp] theorem idxField_imm (idx : BitVec 3) : idxField (0#5 ++ idx) = idx := by
  revert idx
  decide

@[simp] theorem highField_imm (idx : BitVec 3) : highField (0#5 ++ idx) = 0#5 := by
  revert idx
  decide

theorem toNat_highField (imm : Byte) : (highField imm).toNat = imm.toNat / 8 := by
  simp only [highField, BitVec.extractLsb'_toNat, Nat.shiftRight_eq_div_pow]
  omega

theorem toNat_idxField (imm : Byte) : (idxField imm).toNat = imm.toNat % 8 := by
  simp [idxField, BitVec.extractLsb'_toNat]

/-- The operand byte of format X is its index when the upper five bits are zero. -/
theorem imm_of_highField_zero (imm : Byte) (h : highField imm = 0#5) : 0#5 ++ idxField imm = imm := by
  have hz : (highField imm).toNat = 0 := by rw [h]; rfl
  rw [toNat_highField] at hz
  apply BitVec.eq_of_toNat_eq
  rw [BitVec.toNat_append, toNat_idxField]
  simp only [BitVec.toNat_ofNat, Nat.zero_mod, Nat.zero_shiftLeft, Nat.zero_or]
  omega

end Sys2Proof
end

