-- ==== Sys2Proof/Laws/Memory.lean ====
section
/-! SUPPORT. The laws of a buffer: reading after writing, and that every operation keeps the canonical form and the bounds.
-/

namespace Sys2Proof.Machine

/-- Every listed index of `m` lies above `a`. -/
abbrev Memory.above (m : Memory) (a : Nat) : Prop := ∀ c ∈ m, a < c.1

theorem Memory.wf_nil : Memory.wf [] := by simp [Memory.wf]

theorem Memory.wf_cons {i : Nat} {b : Byte} {m : Memory} :
    Memory.wf ((i, b) :: m) ↔ b ≠ Memory.unlisted ∧ Memory.above m i ∧ Memory.wf m := by
  simp only [Memory.wf, Memory.above, List.pairwise_cons, List.forall_mem_cons]
  tauto

@[simp] theorem Memory.zeroised_wf : Memory.zeroised.wf := Memory.wf_nil

@[simp] theorem Memory.zeroised_within (n : Nat) : Memory.zeroised.within n := by simp [Memory.zeroised, Memory.within]

@[simp] theorem Memory.read_nil (a : Nat) : Memory.read [] a = 0#8 := rfl

@[simp] theorem Memory.read_zeroised (a : Nat) : Memory.zeroised.read a = 0#8 := rfl

theorem Memory.read_cons (i : Nat) (b : Byte) (m : Memory) (a : Nat) :
    Memory.read ((i, b) :: m) a = if i = a then b else Memory.read m a := rfl

/-- An index below every listed one reads as unlisted. -/
theorem Memory.read_of_above {m : Memory} {a : Nat} (h : m.above a) : m.read a = 0#8 := by
  induction m with
  | nil => rfl
  | cons c m ih =>
    have hc := List.forall_mem_cons.mp h
    rw [Memory.read_cons, if_neg (Nat.ne_of_gt hc.1), ih hc.2]

/-- An index at or above the size of a buffer reads as unlisted. -/
theorem Memory.read_of_within {m : Memory} {n a : Nat} (h : m.within n) (ha : n ≤ a) : m.read a = 0#8 := by
  induction m with
  | nil => rfl
  | cons c m ih =>
    have hc := List.forall_mem_cons.mp h
    rw [Memory.read_cons, if_neg (by omega), ih hc.2]

theorem Memory.read_push {m : Memory} {a : Nat} (b : Byte) (h : m.above a) (x : Nat) :
    (Memory.push a b m).read x = if x = a then b else m.read x := by
  unfold Memory.push
  split
  next hb =>
    split
    next hx => rw [hx, Memory.read_of_above h, hb]; rfl
    next => rfl
  next => rw [Memory.read_cons]; simp only [eq_comm]

theorem Memory.wf_push {m : Memory} {a : Nat} (b : Byte) (h : m.above a) (hm : m.wf) : (Memory.push a b m).wf := by
  unfold Memory.push
  split
  next => exact hm
  next hb => exact Memory.wf_cons.mpr ⟨hb, h, hm⟩

theorem Memory.above_push {m : Memory} {a x : Nat} (b : Byte) (ha : x < a) (h : m.above x) :
    (Memory.push a b m).above x := by
  unfold Memory.push
  split
  next => exact h
  next => exact List.forall_mem_cons.mpr ⟨ha, h⟩

theorem Memory.within_push {m : Memory} {a n : Nat} (b : Byte) (ha : a < n) (h : m.within n) :
    (Memory.push a b m).within n := by
  unfold Memory.push
  split
  next => exact h
  next => exact List.forall_mem_cons.mpr ⟨ha, h⟩

theorem Memory.above_mono {m : Memory} {a x : Nat} (h : m.above a) (hx : x ≤ a) : m.above x :=
  fun c hc => Nat.lt_of_le_of_lt hx (h c hc)

theorem Memory.above_write {m : Memory} {a x : Nat} (b : Byte) (ha : x < a) (h : m.above x) : (m.write a b).above x := by
  induction m with
  | nil => exact Memory.above_push b ha h
  | cons c m ih =>
    have hc := List.forall_mem_cons.mp h
    unfold Memory.write
    split
    · exact Memory.above_push b ha h
    · split
      · exact Memory.above_push b ha hc.2
      · exact List.forall_mem_cons.mpr ⟨hc.1, ih hc.2⟩

theorem Memory.within_write {m : Memory} {a n : Nat} (b : Byte) (ha : a < n) (h : m.within n) :
    (m.write a b).within n := by
  induction m with
  | nil => exact Memory.within_push b ha h
  | cons c m ih =>
    have hc := List.forall_mem_cons.mp h
    unfold Memory.write
    split
    · exact Memory.within_push b ha h
    · split
      · exact Memory.within_push b ha hc.2
      · exact List.forall_mem_cons.mpr ⟨hc.1, ih hc.2⟩

/-- A write keeps the canonical form. -/
theorem Memory.wf_write {m : Memory} (a : Nat) (b : Byte) (h : m.wf) : (m.write a b).wf := by
  induction m with
  | nil => exact Memory.wf_push b (by simp [Memory.above]) h
  | cons c m ih =>
    obtain ⟨hb, hab, hm⟩ := Memory.wf_cons.mp h
    unfold Memory.write
    split
    next hlt =>
      exact Memory.wf_push b (List.forall_mem_cons.mpr ⟨hlt, Memory.above_mono hab (Nat.le_of_lt hlt)⟩) h
    next hge =>
      split
      next heq => exact Memory.wf_push b (heq ▸ hab) hm
      next hne => exact Memory.wf_cons.mpr ⟨hb, Memory.above_write b (by omega) hab, ih hm⟩

/-- Read after write: the written byte at its index, the old byte everywhere else. -/
theorem Memory.read_write {m : Memory} (a : Nat) (b : Byte) (h : m.wf) (x : Nat) :
    (m.write a b).read x = if x = a then b else m.read x := by
  induction m with
  | nil => exact Memory.read_push b (by simp [Memory.above]) x
  | cons c m ih =>
    obtain ⟨hb, hab, hm⟩ := Memory.wf_cons.mp h
    unfold Memory.write
    split
    next hlt =>
      exact Memory.read_push b (List.forall_mem_cons.mpr ⟨hlt, Memory.above_mono hab (Nat.le_of_lt hlt)⟩) x
    next hge =>
      split
      next heq =>
        rw [Memory.read_push b (heq ▸ hab)]
        split
        next => rfl
        next hx => rw [Memory.read_cons, if_neg (by omega)]
      next hne =>
        rw [Memory.read_cons, Memory.read_cons, ih hm]
        by_cases hx : c.1 = x
        · simp [hx, show x ≠ a by omega]
        · simp [hx]

/-- Writing a byte string keeps the canonical form. -/
theorem Memory.wf_writeBytes {m : Memory} (a : Nat) (bs : List Byte) (h : m.wf) : (m.writeBytes a bs).wf := by
  induction bs generalizing m a with
  | nil => exact h
  | cons b bs ih => exact ih (a + 1) (Memory.wf_write a b h)

theorem Memory.within_writeBytes {m : Memory} {a n : Nat} (bs : List Byte) (ha : a + bs.length ≤ n)
    (h : m.within n) : (m.writeBytes a bs).within n := by
  induction bs generalizing m a with
  | nil => exact h
  | cons b bs ih =>
    simp only [List.length_cons] at ha
    exact ih (by omega) (Memory.within_write b (by omega) h)

/-- Read after a write of a byte string: byte `x - a` of it inside its window, the old byte outside. -/
theorem Memory.read_writeBytes {m : Memory} (a : Nat) (bs : List Byte) (h : m.wf) (x : Nat) :
    (m.writeBytes a bs).read x = if a ≤ x ∧ x < a + bs.length then byteAt bs (x - a) else m.read x := by
  induction bs generalizing m a with
  | nil =>
    rw [if_neg (by simp only [List.length_nil]; omega)]
    rfl
  | cons b bs ih =>
    rw [Memory.writeBytes, ih (a + 1) (Memory.wf_write a b h), Memory.read_write a b h, List.length_cons]
    by_cases hx : x = a
    · subst hx
      rw [if_neg (by omega), if_pos rfl, if_pos (by omega), Nat.sub_self]
      rfl
    · rw [if_neg hx]
      by_cases hw : a + 1 ≤ x ∧ x < a + 1 + bs.length
      · rw [if_pos hw, if_pos (by omega), show x - a = (x - (a + 1)) + 1 by omega]
        rfl
      · rw [if_neg hw, if_neg (by omega)]

@[simp] theorem Memory.length_readBytes (m : Memory) (a n : Nat) : (m.readBytes a n).length = n := by
  simp [Memory.readBytes]

theorem byteAt_readBytes (m : Memory) (a : Nat) {n i : Nat} (h : i < n) : byteAt (m.readBytes a n) i = m.read (a + i) := by
  simp [byteAt, Memory.readBytes, List.getD, h]

/-- Two buffers that read alike over a window have the same byte string there. -/
theorem Memory.readBytes_congr {m m' : Memory} {a n : Nat} (h : ∀ i, i < n → m.read (a + i) = m'.read (a + i)) :
    m.readBytes a n = m'.readBytes a n := by
  simp only [Memory.readBytes]
  exact List.map_congr_left fun i hi => h i (List.mem_range.mp hi)

end Sys2Proof.Machine
end

