-- ==== Sys2Proof/Laws/State.lean ====
section
/-! SUPPORT. One lemma per field per update of Engine and of State, each true by definition, so that no proof unfolds a record
update. -/

namespace Sys2Proof.Machine

section wipeInputs
variable (e : Engine)
@[simp] theorem wipeInputs_key : e.wipeInputs.key = Memory.zeroised := rfl
@[simp] theorem wipeInputs_klen : e.wipeInputs.klen = 0 := rfl
@[simp] theorem wipeInputs_kovf : e.wipeInputs.kovf = false := rfl
@[simp] theorem wipeInputs_ctr : e.wipeInputs.ctr = 0#64 := rfl
@[simp] theorem wipeInputs_code : e.wipeInputs.code = e.code := rfl
@[simp] theorem wipeInputs_valid : e.wipeInputs.valid = e.valid := rfl
end wipeInputs

section dropCode
variable (e : Engine)
@[simp] theorem dropCode_key : e.dropCode.key = e.key := rfl
@[simp] theorem dropCode_klen : e.dropCode.klen = e.klen := rfl
@[simp] theorem dropCode_kovf : e.dropCode.kovf = e.kovf := rfl
@[simp] theorem dropCode_ctr : e.dropCode.ctr = e.ctr := rfl
@[simp] theorem dropCode_code : e.dropCode.code = Memory.zeroised := rfl
@[simp] theorem dropCode_valid : e.dropCode.valid = false := rfl
end dropCode

section zeroise
variable (e : Engine)
@[simp] theorem zeroise_key : e.zeroise.key = Memory.zeroised := rfl
@[simp] theorem zeroise_klen : e.zeroise.klen = 0 := rfl
@[simp] theorem zeroise_kovf : e.zeroise.kovf = false := rfl
@[simp] theorem zeroise_ctr : e.zeroise.ctr = 0#64 := rfl
@[simp] theorem zeroise_code : e.zeroise.code = Memory.zeroised := rfl
@[simp] theorem zeroise_valid : e.zeroise.valid = false := rfl
end zeroise

section setOverflow
variable (e : Engine)
@[simp] theorem setOverflow_key : e.setOverflow.key = e.key := rfl
@[simp] theorem setOverflow_klen : e.setOverflow.klen = e.klen := rfl
@[simp] theorem setOverflow_kovf : e.setOverflow.kovf = true := rfl
@[simp] theorem setOverflow_ctr : e.setOverflow.ctr = e.ctr := rfl
@[simp] theorem setOverflow_code : e.setOverflow.code = e.code := rfl
@[simp] theorem setOverflow_valid : e.setOverflow.valid = e.valid := rfl
end setOverflow

section setValid
variable (e : Engine)
@[simp] theorem setValid_key : e.setValid.key = e.key := rfl
@[simp] theorem setValid_klen : e.setValid.klen = e.klen := rfl
@[simp] theorem setValid_kovf : e.setValid.kovf = e.kovf := rfl
@[simp] theorem setValid_ctr : e.setValid.ctr = e.ctr := rfl
@[simp] theorem setValid_code : e.setValid.code = e.code := rfl
@[simp] theorem setValid_valid : e.setValid.valid = true := rfl
end setValid

section shiftCounter
variable (e : Engine) (b : Byte)
@[simp] theorem shiftCounter_key : (e.shiftCounter b).key = e.key := rfl
@[simp] theorem shiftCounter_klen : (e.shiftCounter b).klen = e.klen := rfl
@[simp] theorem shiftCounter_kovf : (e.shiftCounter b).kovf = e.kovf := rfl
@[simp] theorem shiftCounter_ctr : (e.shiftCounter b).ctr = (e.ctr <<< 8) ||| byteOperand64 b := rfl
@[simp] theorem shiftCounter_code : (e.shiftCounter b).code = e.code := rfl
@[simp] theorem shiftCounter_valid : (e.shiftCounter b).valid = e.valid := rfl
end shiftCounter

section pushKey
variable (e : Engine) (b : Byte)
@[simp] theorem pushKey_key : (e.pushKey b).key = e.key.writeBytes e.pushIndex [b] := rfl
@[simp] theorem pushKey_klen : (e.pushKey b).klen = e.klen + 1 := rfl
@[simp] theorem pushKey_kovf : (e.pushKey b).kovf = e.kovf := rfl
@[simp] theorem pushKey_ctr : (e.pushKey b).ctr = e.ctr := rfl
@[simp] theorem pushKey_code : (e.pushKey b).code = e.code := rfl
@[simp] theorem pushKey_valid : (e.pushKey b).valid = e.valid := rfl
end pushKey

section produceCode
variable (e : Engine)
@[simp] theorem produceCode_key : e.produceCode.key = Memory.zeroised := rfl
@[simp] theorem produceCode_klen : e.produceCode.klen = 0 := rfl
@[simp] theorem produceCode_kovf : e.produceCode.kovf = false := rfl
@[simp] theorem produceCode_ctr : e.produceCode.ctr = 0#64 := rfl
@[simp] theorem produceCode_code : e.produceCode.code = e.code.writeBytes 0 e.loadedCode := rfl
@[simp] theorem produceCode_valid : e.produceCode.valid = true := rfl
end produceCode

section answered
variable (s : State) (p : Reply)
@[simp] theorem answered_toEngine : (s.answered p).toEngine = p.1 := rfl
@[simp] theorem answered_cfg : (s.answered p).cfg = s.cfg := rfl
@[simp] theorem answered_resetSeen : (s.answered p).resetSeen = s.resetSeen := rfl
@[simp] theorem answered_moves : (s.answered p).moves = s.moves := rfl
@[simp] theorem answered_rsps : (s.answered p).rsps = s.rsps ++ [p.2] := rfl
end answered

section applyReset
variable (s : State)
@[simp] theorem applyReset_toEngine : s.applyReset.toEngine = s.toEngine.zeroise := rfl
@[simp] theorem applyReset_cfg : s.applyReset.cfg = s.cfg := rfl
@[simp] theorem applyReset_resetSeen : s.applyReset.resetSeen = true := rfl
@[simp] theorem applyReset_moves : s.applyReset.moves = s.moves := rfl
@[simp] theorem applyReset_rsps : s.applyReset.rsps = s.rsps := rfl
end applyReset

section sending
variable (s : State) (cs : List Instr)
@[simp] theorem sending_toEngine : (s.sending cs).toEngine = s.toEngine := rfl
@[simp] theorem sending_cfg : (s.sending cs).cfg = s.cfg := rfl
@[simp] theorem sending_resetSeen : (s.sending cs).resetSeen = s.resetSeen := rfl
@[simp] theorem sending_moves : (s.sending cs).moves = cs.map (fun i => HostMove.command (encode i)) ++ s.moves := rfl
@[simp] theorem sending_rsps : (s.sending cs).rsps = s.rsps := rfl
end sending

section presenting
variable (s : State) (w : Cmd)
@[simp] theorem presenting_toEngine : (s.presenting w).toEngine = s.toEngine := rfl
@[simp] theorem presenting_cfg : (s.presenting w).cfg = s.cfg := rfl
@[simp] theorem presenting_resetSeen : (s.presenting w).resetSeen = true := rfl
@[simp] theorem presenting_moves : (s.presenting w).moves = HostMove.command w :: s.moves := rfl
@[simp] theorem presenting_rsps : (s.presenting w).rsps = s.rsps := rfl
end presenting

section replies
variable (e : Engine) (d : Byte) (f : EngineFault)
@[simp] theorem ok_fst : (e.ok d).1 = e := rfl
@[simp] theorem ok_snd : (e.ok d).2 = okWord d := rfl
@[simp] theorem raise_fst : (e.raise f).1 = e := rfl
@[simp] theorem raise_snd : (e.raise f).2 = faultWord f := rfl
theorem zeroise_eq_reset : e.zeroise = Engine.reset := rfl
end replies

section sizes
variable (c : Config)
@[simp] theorem size_key : Space.size c .key = c.keyMax := rfl
@[simp] theorem size_code : Space.size c .code = codeSize := rfl
end sizes

section buffers
variable (e : Engine) (m : Memory) (bs : List Byte) (a : Nat)
@[simp] theorem readByte_key : e.readByte .key a = e.key.read a := rfl
@[simp] theorem readByte_code : e.readByte .code a = e.code.read a := rfl
@[simp] theorem withBuffer_key : e.withBuffer .key m = { e with key := m } := rfl
@[simp] theorem withBuffer_code : e.withBuffer .code m = { e with code := m } := rfl
@[simp] theorem memWrite_key : e.memWrite .key a bs = { e with key := e.key.writeBytes a bs } := rfl
@[simp] theorem memWrite_code : e.memWrite .code a bs = { e with code := e.code.writeBytes a bs } := rfl
end buffers

end Sys2Proof.Machine
end

