-- ==== Sys2Proof/Laws/Exec.lean ====
section
/-! SUPPORT. What each command does to the engine, said once; the tie between `exec` and the engine's own step; what one
step of the machine does, said once. -/

namespace Sys2Proof.Machine

section engine
variable (c : Config) (e : Engine)

theorem keyb_room (b : Byte) (h : e.klen < c.keyMax) : e.keyb c b = (e.pushKey b).ok 0x00#8 := by
  simp [Engine.keyb, Engine.keyFull, h]

theorem keyb_full (b : Byte) (h : ¬ e.klen < c.keyMax) : e.keyb c b = e.setOverflow.raise .keyOverflow := by
  simp [Engine.keyb, Engine.keyFull, h]

theorem go_unusable (h : e.klen = 0 ∨ e.kovf = true) : e.go = e.zeroise.raise .invalidSecret := by
  simp only [Engine.go, Engine.secretUnusable]
  rcases h with h | h <;> simp [h]

theorem go_usable (h : e.klen ≠ 0) (h' : e.kovf = false) : e.go = e.produceCode.ok 0x00#8 := by
  simp [Engine.go, Engine.secretUnusable, h, h']

theorem rdch_reserved (idx : BitVec 3) (h : 5 < idx.toNat) : e.rdch idx = e.raise .illegalCommand := by
  simp [Engine.rdch, indexReserved, codeIndex, h]

theorem rdch_noCode (idx : BitVec 3) (h : ¬ 5 < idx.toNat) (hv : e.valid = false) : e.rdch idx = e.raise .noCode := by
  simp [Engine.rdch, indexReserved, codeIndex, h, hv]

theorem rdch_reads (idx : BitVec 3) (h : ¬ 5 < idx.toNat) (hv : e.valid = true) :
    e.rdch idx = e.ok (e.readByte .code idx.toNat) := by
  simp [Engine.rdch, indexReserved, codeIndex, h, hv]

/-- Everything a command can do to the engine, as one case list: the state it leaves and its response. -/
theorem engineCommand_cases (i : Instr) :
    (i = .nop ∧ engineCommand c e i = e.ok 0x00#8) ∨
    (i = .clr ∧ engineCommand c e i = e.zeroise.ok 0x00#8) ∨
    (∃ b, i = .keyb b ∧ e.klen < c.keyMax ∧ engineCommand c e i = (e.pushKey b).ok 0x00#8) ∨
    (∃ b, i = .keyb b ∧ ¬ e.klen < c.keyMax ∧ engineCommand c e i = e.setOverflow.raise .keyOverflow) ∨
    (∃ b, i = .ctrb b ∧ engineCommand c e i = (e.shiftCounter b).ok 0x00#8) ∨
    (i = .go ∧ (e.klen = 0 ∨ e.kovf = true) ∧ engineCommand c e i = e.zeroise.raise .invalidSecret) ∨
    (i = .go ∧ e.klen ≠ 0 ∧ e.kovf = false ∧ engineCommand c e i = e.produceCode.ok 0x00#8) ∨
    (i = .rdst ∧ engineCommand c e i = e.ok e.status) ∨
    (∃ idx, i = .rdch idx ∧ 5 < idx.toNat ∧ engineCommand c e i = e.raise .illegalCommand) ∨
    (∃ idx, i = .rdch idx ∧ ¬ 5 < idx.toNat ∧ e.valid = false ∧ engineCommand c e i = e.raise .noCode) ∨
    (∃ idx, i = .rdch idx ∧ ¬ 5 < idx.toNat ∧ e.valid = true ∧
      engineCommand c e i = e.ok (e.readByte .code idx.toNat)) := by
  cases i with
  | nop => exact .inl ⟨rfl, rfl⟩
  | clr => exact .inr (.inl ⟨rfl, rfl⟩)
  | keyb b =>
    by_cases h : e.klen < c.keyMax
    · exact .inr (.inr (.inl ⟨b, rfl, h, keyb_room c e b h⟩))
    · exact .inr (.inr (.inr (.inl ⟨b, rfl, h, keyb_full c e b h⟩)))
  | ctrb b => exact .inr (.inr (.inr (.inr (.inl ⟨b, rfl, rfl⟩))))
  | go =>
    by_cases h : e.klen = 0 ∨ e.kovf = true
    · exact .inr (.inr (.inr (.inr (.inr (.inl ⟨rfl, h, go_unusable e h⟩)))))
    · have h' : e.klen ≠ 0 ∧ e.kovf = false := by simpa using h
      exact .inr (.inr (.inr (.inr (.inr (.inr (.inl ⟨rfl, h'.1, h'.2, go_usable e h'.1 h'.2⟩))))))
  | rdst => exact .inr (.inr (.inr (.inr (.inr (.inr (.inr (.inl ⟨rfl, rfl⟩)))))))
  | rdch idx =>
    refine .inr (.inr (.inr (.inr (.inr (.inr (.inr (.inr ?_)))))))
    by_cases h : 5 < idx.toNat
    · exact .inl ⟨idx, rfl, h, rdch_reserved e idx h⟩
    · cases hv : e.valid with
      | false => exact .inr (.inl ⟨idx, rfl, h, rfl, rdch_noCode e idx h hv⟩)
      | true => exact .inr (.inr ⟨idx, rfl, h, rfl, rdch_reads e idx h hv⟩)

theorem engineStep_ok {w : Cmd} {i : Instr} (h : decode w = .ok i) : engineStep c e w = engineCommand c e i := by
  simp [engineStep, h]

theorem engineStep_illegal {w : Cmd} {x : IllegalWord} (h : decode w = .error x) :
    engineStep c e w = e.raise .illegalCommand := by simp [engineStep, h]

end engine

section machine
variable (s : State)

/-- Every command hands the engine's reply to the host, and that is all: the parameter, the host's moves and whether reset was
seen are as before. -/
theorem exec_eq (i : Instr) : exec i s = .next (s.answered (engineCommand s.cfg s.toEngine i)) := by cases i <;> rfl

theorem execWord_eq (w : Cmd) : execWord w s = .next (s.answered (engineStep s.cfg s.toEngine w)) := by
  unfold execWord engineStep
  cases decode w with
  | ok i => exact exec_eq s i
  | error x => rfl

/-- What a step does, by the host's next move. -/
theorem step_idle (h : s.moves = []) : step s = .next s := by simp [step, State.nextMove, h]

theorem step_reset {rest : List HostMove} (h : s.moves = .reset :: rest) :
    step s = .next ({ s with moves := rest } : State).applyReset := by simp [step, State.nextMove, h, runMove]

theorem step_refused {w : Cmd} {rest : List HostMove} (h : s.moves = .command w :: rest) (hr : s.resetSeen = false) :
    step s = .refused .beforeFirstReset := by simp [step, State.nextMove, h, runMove, hr]

theorem step_word {w : Cmd} {rest : List HostMove} (h : s.moves = .command w :: rest) (hr : s.resetSeen = true) :
    step s = .next (({ s with moves := rest } : State).answered (engineStep s.cfg s.toEngine w)) := by
  simp [step, State.nextMove, h, runMove, hr, execWord_eq]

end machine

end Sys2Proof.Machine
end

