-- ==== Sys2Proof/Laws/PerInstr.lean ====
section
/-! SUPPORT. The family RowSelects: the word of every instruction selects its own row of the opcode map (30_encoding.md
R53), one lemma per constructor. -/

namespace Sys2Proof.Laws.RowSelects

/-- The instruction's row is in the opcode map, and its word selects it. -/
def Statement (i : Instr) : Prop := i.row ∈ opcodeTable ∧ i.row.selects (encode i) = true

/-- A word ANDed with the mask of a format-B row is its `op` field over a zero byte. -/
theorem packWord_and_highMask (op imm : Byte) : packWord op imm &&& 0xFF00#16 = packWord op 0#8 := by
  apply BitVec.eq_of_toNat_eq
  have h : (packWord op imm &&& 0xFF00#16).toNat = (packWord op imm >>> 8 <<< 8).toNat :=
    congrArg BitVec.toNat (by ext i hi; interval_cases i <;> simp)
  rw [h, BitVec.toNat_shiftLeft, BitVec.toNat_ushiftRight, toNat_packWord, toNat_packWord]
  simp only [Nat.shiftRight_eq_div_pow, Nat.shiftLeft_eq, BitVec.toNat_ofNat]
  omega

theorem nop : Statement .nop := by unfold Statement; decide

theorem clr : Statement .clr := by unfold Statement; decide

theorem keyb (b : Byte) : Statement (.keyb b) := by
  refine ⟨by simp [opcodeTable, Instr.row], ?_⟩
  simp only [OpRow.selects, Instr.row, encode, Instr.op, Instr.imm, packWord_and_highMask]
  decide

theorem ctrb (b : Byte) : Statement (.ctrb b) := by
  refine ⟨by simp [opcodeTable, Instr.row], ?_⟩
  simp only [OpRow.selects, Instr.row, encode, Instr.op, Instr.imm, packWord_and_highMask]
  decide

theorem go : Statement .go := by unfold Statement; decide

theorem rdst : Statement .rdst := by unfold Statement; decide

theorem rdch (idx : BitVec 3) : Statement (.rdch idx) := by
  revert idx
  unfold Statement
  decide

end Sys2Proof.Laws.RowSelects
end

