-- ==== Sys2Proof/Laws/Run.lean ====
section
/-! SUPPORT. Runs of several steps. -/

namespace Sys2Proof.Machine

@[simp] theorem runSteps_zero (s : State) : runSteps 0 s = .next s := rfl

/-- One step more of any host machine, with the three outcomes spelled out. -/
theorem coreRun_succ (M : Host.Core) (n : Nat) (s : M.State) : M.run (n + 1) s =
    match M.step s with
    | .next t => M.run n t
    | .fault r => .fault r
    | .refused r => .refused r := by
  cases h : M.step s <;> simp [Host.Core.run, h]

theorem runSteps_succ (n : Nat) (s : State) : runSteps (n + 1) s =
    match step s with
    | .next t => runSteps n t
    | .fault r => .fault r
    | .refused r => .refused r := by
  have h := coreRun_succ Sys2Proof.core n s
  rw [show Sys2Proof.core.step s = step s from rfl] at h
  refine h.trans ?_
  cases step s <;> rfl

theorem runSteps_succ_of_step {s t : State} (n : Nat) (h : step s = .next t) : runSteps (n + 1) s = runSteps n t := by
  rw [runSteps_succ, h]

/-- A run of `m + n` steps is a run of `n` steps from where `m` steps end. -/
theorem runSteps_add {s t : State} {m : Nat} (n : Nat) (h : runSteps m s = .next t) :
    runSteps (m + n) s = runSteps n t := by
  induction m generalizing s with
  | zero =>
    rw [runSteps_zero] at h
    cases h
    rw [Nat.zero_add]
  | succ m ih =>
    cases hs : step s with
    | next u =>
      rw [runSteps_succ_of_step m hs] at h
      rw [Nat.succ_add, runSteps_succ_of_step _ hs, ih h]
    | fault r => cases r
    | refused r =>
      rw [runSteps_succ, hs] at h
      cases h

@[simp] theorem sending_nil (s : State) : s.sending [] = s := rfl

theorem sending_cons (s : State) (i : Instr) (cs : List Instr) :
    (s.sending (i :: cs)).moves = .command (encode i) :: (s.sending cs).moves := rfl

theorem sending_append (s : State) (cs ds : List Instr) : s.sending (cs ++ ds) = (s.sending ds).sending cs := by
  simp [State.sending]

end Sys2Proof.Machine
end

