-- ==== Sys2Proof/Laws/Strings.lean ====
section
/-! SUPPORT. Lengths and bytes of the byte strings that GO computes. -/

namespace Sys2Proof.Machine

@[simp] theorem length_rep (c : Byte) (n : Nat) : (rep c n).length = n := List.length_replicate

@[simp] theorem length_bytesBe (v n : Nat) : (bytesBe v n).length = n := by simp [bytesBe]

@[simp] theorem length_xorByte (s : List Byte) (c : Byte) : (xorByte s c).length = s.length := List.length_map ..

theorem byteAt_of_lt {s : List Byte} {i : Nat} (h : i < s.length) : byteAt s i = s[i] := by simp [byteAt, List.getD, h]

theorem byteAt_bytesBe (v : Nat) {n i : Nat} (h : i < n) : byteAt (bytesBe v n) i = beByte v n i := by
  simp [byteAt, bytesBe, List.getD, h]

@[simp] theorem length_digestBytes (h : Five) : (digestBytes h).length = 20 := by simp [digestBytes]

@[simp] theorem length_sha1 (m : List Byte) : (sha1 m).length = 20 := length_digestBytes _

@[simp] theorem length_hmacSha1 (k m : List Byte) : (hmacSha1 k m).length = 20 := length_sha1 _

@[simp] theorem length_hotpDigest (k : List Byte) (c : Word64) : (hotpDigest k c).length = 20 := length_sha1 _

theorem length_shortKey (k : List Byte) : (shortKey k).length ≤ 64 := by
  unfold shortKey
  split
  next => simp
  next h => omega

@[simp] theorem length_normKey (k : List Byte) : (normKey k).length = 64 := by
  have := length_shortKey k
  simp only [normKey, List.length_append, length_rep]
  omega

@[simp] theorem length_decFmt (v : Nat) : (decFmt v).length = 6 := by simp [decFmt]

@[simp] theorem length_hotp (k : List Byte) (c : Word64) : (hotp k c).length = 6 := length_decFmt _

theorem decDigit_lt (v k : Nat) : decDigit v k < 10 := Nat.mod_lt _ (by decide)

theorem byteAt_decFmt (v : Nat) {i : Nat} (h : i < 6) : byteAt (decFmt v) i = digitChar (decDigit v i) := by
  simp [byteAt, decFmt, List.getD, h]

theorem toNat_digitChar {n : Nat} (h : n < 10) : (digitChar n).toNat = 0x30 + n := by
  rw [digitChar, BitVec.toNat_ofNat, Nat.mod_eq_of_lt (by omega)]

theorem truncValue_lt (d : List Byte) : truncValue d < 1000000 := Nat.mod_lt _ (by decide)

theorem byteAt_append_left {s : List Byte} (t : List Byte) {i : Nat} (h : i < s.length) :
    byteAt (s ++ t) i = byteAt s i := by
  simp [byteAt, List.getD, List.getElem?_append_left h]

theorem byteAt_append_right (s t : List Byte) (i : Nat) : byteAt (s ++ t) (s.length + i) = byteAt t i := by
  simp [byteAt, List.getD, List.getElem?_append_right]

/-- The last byte of a big-endian string is the low byte of its number. -/
theorem bytesBe_succ (v n : Nat) : bytesBe v (n + 1) = bytesBe (v / 256) n ++ [BitVec.ofNat 8 v] := by
  unfold bytesBe
  rw [List.range_succ, List.map_append, List.map_singleton]
  congr 1
  · apply List.map_congr_left
    intro i hi
    have hi := List.mem_range.mp hi
    rw [beByte, beByte, Nat.div_div_eq_div_mul, show 8 * (n + 1 - 1 - i) = 8 + 8 * (n - 1 - i) by omega, Nat.pow_add]
  · simp [beByte]

/-- One more byte at the low end. -/
theorem bigEndianValue_concat (bs : List Byte) (b : Byte) :
    bigEndianValue (bs ++ [b]) = bigEndianValue bs * 256 + b.toNat := by
  unfold bigEndianValue
  rw [List.length_append, List.length_singleton, List.range_succ, List.map_append, List.sum_append]
  refine congrArg₂ (· + ·) ?_ ?_
  · rw [← List.sum_map_mul_right]
    refine congrArg List.sum (List.map_congr_left fun i hi => ?_)
    have hi := List.mem_range.mp hi
    rw [byteAt_append_left _ hi, Nat.mul_assoc, ← Nat.pow_succ, show bs.length + 1 - 1 - i = bs.length - 1 - i + 1 by omega]
  · simp [byteAt, List.getD]

@[simp] theorem bigEndianValue_nil : bigEndianValue [] = 0 := rfl

/-- The number of the big-endian string of a number. -/
theorem bigEndianValue_bytesBe (v n : Nat) : bigEndianValue (bytesBe v n) = v % 256 ^ n := by
  induction n generalizing v with
  | zero => rw [Nat.pow_zero, Nat.mod_one]; rfl
  | succ n ih =>
    have hp : (256 : Nat) ^ (n + 1) = 256 * 256 ^ n := Nat.pow_succ'
    rw [bytesBe_succ, bigEndianValue_concat, ih, BitVec.toNat_ofNat, hp, Nat.mod_mul]
    omega

/-- The big-endian string of the number of a string. -/
theorem bytesBe_bigEndianValue (bs : List Byte) : bytesBe (bigEndianValue bs) bs.length = bs := by
  induction bs using List.reverseRecOn with
  | nil => rfl
  | append_singleton bs b ih =>
    have hb := b.isLt
    rw [bigEndianValue_concat, List.length_append, List.length_singleton, bytesBe_succ,
      show (bigEndianValue bs * 256 + b.toNat) / 256 = bigEndianValue bs by omega, ih]
    refine congrArg (bs ++ [·]) (BitVec.eq_of_toNat_eq ?_)
    rw [BitVec.toNat_ofNat]
    omega

end Sys2Proof.Machine
end

