-- ==== Sys2Proof/Tests/Slice0.lean ====
section
/-! SUPPORT. The model's own tests, each one step or one function call against a value of spec/95_test_vectors.md (named in
its docstring), and for every statement with hypotheses a concrete input that meets them. -/

namespace Sys2Proof.Tests

open Sys2Proof.Machine

/-! ### Helpers -/

/-- The ASCII bytes of a text. -/
def ascii (text : List Char) : List Byte := text.map fun c => BitVec.ofNat 8 c.toNat

/-- The secret of the source's reference vectors, 20 bytes. -/
def sourceKey : List Byte := ascii "12345678901234567890".toList

/-- An engine with a key buffer of 20 bytes holding these operands and this Code (none when the list is empty). -/
def machine (key : List Byte) (kovf : Bool) (ctr : Word64) (code : List Byte) : State :=
  { State.reset with
    key := Memory.zeroised.writeBytes 0 key, klen := key.length, kovf := kovf, ctr := ctr
    code := Memory.zeroised.writeBytes 0 code, valid := !code.isEmpty, cfg := ⟨20⟩ }

/-- A partly loaded engine with an old Code. -/
def ready : State := machine [0x31#8] false 7#64 (ascii "755224".toList)

/-- An engine whose secret overflowed, with an old Code. -/
def full : State := machine sourceKey true 5#64 (ascii "755224".toList)

/-- An engine with a secret, a counter and no Code. -/
def loaded : State := machine sourceKey false 1#64 []

/-- The state a step or a command leaves. -/
def after (o : Host.Outcome State Fault Refusal) : Option State :=
  match o with
  | .next t => some t
  | .fault _ => none
  | .refused _ => none

/-- `s` with these moves to come. -/
def facing (s : State) (ms : List HostMove) : State := { s with moves := ms }

/-- `s` after a response and nothing else. -/
def answered (s : State) (r : Rsp) : State := { s with rsps := s.rsps ++ [r] }

/-- One step from `s` on the word `w`. -/
def onWord (s : State) (w : Cmd) : Option State := after (step (facing s [.command w]))

/-! ### Well-formedness -/

theorem test_wf_accepts : Instr.wf (.rdch 5#3) = true ∧ Instr.wf (.keyb 0xFF#8) = true ∧ Instr.wf .go = true := by decide

theorem test_wf_refuses_index_6 : Instr.wf (.rdch 6#3) = false := by decide

theorem test_wf_refuses_index_7 : Instr.wf (.rdch 7#3) = false := by decide

theorem test_wf_refuses_keyMax_19 : ¬ Config.wf ⟨19⟩ ∧ Config.wf ⟨20⟩ := by decide

theorem test_wf_refuses_keyMax_too_large : ¬ Config.wf ⟨2 ^ 61 - 64⟩ ∧ Config.wf ⟨2 ^ 61 - 65⟩ := by decide

theorem test_wf_refuses_quote : KeyText.wf (.keys ['a', Char.ofNat 0x22]) = false ∧ KeyText.wf (.keys ['a', '~', ' ']) = true := by
  decide

theorem test_wf_refuses_unprintable : KeyText.wf (.keys [Char.ofNat 0x7F]) = false := by decide

theorem test_wf_refuses_pseudo : Pseudo.wf (.load (.keys [Char.ofNat 0x1F])) = false ∧ Pseudo.wf (.ctr64 0#64) = true := by
  decide

theorem test_wf_refuses_unsorted_buffer : ¬ Memory.wf [(1, 5#8), (0, 5#8)] := by decide

theorem test_wf_refuses_listed_zero : ¬ Memory.wf [(0, 0#8)] ∧ Memory.wf [(0, 5#8), (3, 1#8)] := by decide

/-! ### Decoding: words written out bit by bit from the opcode map of 30_encoding.md R53 -/

theorem test_decode_nop : decode 0b0001000000000000#16 = .ok .nop := by decide

theorem test_decode_clr : decode 0b0001000100000000#16 = .ok .clr := by decide

theorem test_decode_keyb : decode 0b0010000010110010#16 = .ok (.keyb 0xB2#8) := by decide

theorem test_decode_ctrb : decode 0b0010000101001101#16 = .ok (.ctrb 0x4D#8) := by decide

theorem test_decode_go : decode 0b0011000000000000#16 = .ok .go := by decide

theorem test_decode_rdst : decode 0b0100000000000000#16 = .ok .rdst := by decide

theorem test_decode_rdch : decode 0b0100000100000011#16 = .ok (.rdch 3#3) := by decide

/-- The two reserved indexes decode (R55, R58). -/
theorem test_decode_reserved_index : decode 0x4106#16 = .ok (.rdch 6#3) ∧ decode 0x4107#16 = .ok (.rdch 7#3) := by decide

theorem test_decode_must_be_zero : decode 0x3001#16 = .error (.mustBeZeroBits 0x30#8 0x01#8) ∧
    decode 0x4108#16 = .error (.mustBeZeroBits 0x41#8 0x08#8) := by decide

theorem test_decode_unassigned : decode 0x0000#16 = .error (.unassignedOpcode 0x00#8) ∧
    decode 0x2200#16 = .error (.unassignedOpcode 0x22#8) ∧ decode 0xFFFF#16 = .error (.unassignedOpcode 0xFF#8) := by decide

theorem test_decodeTableWord : decodeTableWord 16 0x2031 = some (.keyb 0x31#8) ∧ decodeTableWord 16 0x1001 = none := by decide

/-! ### Commands: 95_test_vectors.md section 7 -/

theorem test_nop : onWord ready 0x1000#16 = some (answered ready 0x0000#16) := by decide +kernel

theorem test_clr : (onWord ready 0x1100#16).map State.toEngine = some Engine.reset := by decide +kernel

theorem test_keyb_stores : (onWord ready 0x20FF#16).map (fun t => (t.klen, t.readByte .key 1, t.readByte .key 0, t.rsps)) =
    some (2, 0xFF#8, 0x31#8, [0x0000#16]) := by decide +kernel

/-- The byte is discarded, `KOVF` set. -/
theorem test_keyb_overflows : onWord (machine sourceKey false 0#64 []) 0x2066#16 =
    some (answered (machine sourceKey true 0#64 []) 0x0400#16) := by decide +kernel

/-- The top byte is lost. -/
theorem test_ctrb_shifts : (onWord (machine [] false 0x0123456789ABCDEF#64 []) 0x2100#16).map (fun t => t.ctr) =
    some 0x23456789ABCDEF00#64 := by decide +kernel

theorem test_ctrb_appends : (onWord (machine [] false 1#64 []) 0x2105#16).map (fun t => (t.ctr, t.rsps)) =
    some (0x0105#64, [0x0000#16]) := by decide +kernel

/-- Program P2: the source key and counter 1 give the source's Code "287082"; the operands are gone. -/
theorem test_go_source_vector : (onWord loaded 0x3000#16).map (fun t => (t.toEngine, t.rsps)) =
    some ((machine [] false 0#64 (ascii "287082".toList)).toEngine, [0x0000#16]) := by decide +kernel

/-- An overflowed secret is refused, everything is wiped, the old Code too. -/
theorem test_go_refuses : (onWord full 0x3000#16).map (fun t => (t.toEngine, t.rsps)) =
    some (Engine.reset, [0x0100#16]) := by decide +kernel

theorem test_rdst_all_flags : onWord full 0x4000#16 = some (answered full 0x0007#16) := by decide +kernel

theorem test_rdst_key_only : onWord loaded 0x4000#16 = some (answered loaded 0x0002#16) := by decide +kernel

theorem test_rdch_reads : onWord ready 0x4105#16 = some (answered ready 0x0034#16) := by decide +kernel

/-- No Code: the legal index faults `NoCode`, the reserved one `IllegalCommand` (R159). -/
theorem test_rdch_faults : onWord loaded 0x4105#16 = some (answered loaded 0x0300#16) ∧
    onWord loaded 0x4106#16 = some (answered loaded 0x0200#16) := by decide +kernel

theorem test_illegal_words : onWord full 0x3001#16 = some (answered full 0x0200#16) ∧
    onWord full 0x0000#16 = some (answered full 0x0200#16) ∧ onWord full 0x41FF#16 = some (answered full 0x0200#16) := by
  decide +kernel

theorem test_reset_move : after (step (facing full [.reset])) = some { State.reset with cfg := ⟨20⟩ } := by decide +kernel

theorem test_before_first_reset : after (step { facing full [.command 0x1000#16] with resetSeen := false }) = none := by
  decide +kernel

/-! ### The functions inside GO: 95_test_vectors.md sections 1, 3, 4, 5, 6 -/

/-- Section 3, "abc". -/
theorem test_sha1_abc : bigEndianValue (sha1 (ascii "abc".toList)) = 0xa9993e364706816aba3e25717850c26c9cd0d89d := by
  decide +kernel

/-- Section 3, 56 bytes of 'a': the padding takes a second block. -/
theorem test_sha1_two_blocks : bigEndianValue (sha1 (rep 0x61#8 56)) = 0xc2db330f6083854c99d4b5bfb6e8f29f201be699 := by
  decide +kernel

/-- Section 6: a 65-byte key is hashed first. -/
theorem test_hmac_long_key : bigEndianValue (hmacSha1 ((List.range 65).map (BitVec.ofNat 8)) (counterMsg 1#64)) =
    0x7f7bb6b53d6f4de3e5d25fddfe356529487057dc := by decide +kernel

/-- Section 6: the byte order of all eight message bytes. -/
theorem test_hotp_counter_order : hotp sourceKey 0x0123456789ABCDEF#64 = ascii "828476".toList := by decide +kernel

/-- Section 5, rows 7 and 6: offset 15, bit 31 set; the source's 1234. -/
theorem test_truncate_offset_15 : truncateDigest (rep 0#8 15 ++ bytesBe 0x8000002AFF 5) = ascii "000042".toList ∧
    truncateDigest (rep 0#8 15 ++ bytesBe 0x000004D20F 5) = ascii "001234".toList := by decide

/-- Section 5, row 8: byte `i` is `i`, offset 3. -/
theorem test_truncate_offset_3 : truncateDigest ((List.range 20).map (BitVec.ofNat 8)) = ascii "595078".toList := by decide

/-- R61: the expansion of `CTR64`, and of `KEYX` and `RDCODE`. -/
theorem test_pseudo_expansion : (Pseudo.ctr64 0x0123456789ABCDEF#64).expand.map encode =
      [0x2101#16, 0x2123#16, 0x2145#16, 0x2167#16, 0x2189#16, 0x21AB#16, 0x21CD#16, 0x21EF#16] ∧
    (Pseudo.load (.keyx [(0xA#4, 0x5#4), (0x0#4, 0xF#4)])).expand.map encode = [0x20A5#16, 0x200F#16] ∧
    Pseudo.rdcode.expand.map encode = [0x4100#16, 0x4101#16, 0x4102#16, 0x4103#16, 0x4104#16, 0x4105#16] := by decide

/-! ### Invariants hold of the states used here -/

/-- The invariants from checks on listed bytes alone. -/
theorem inv_of_checks (s : State) (h : s.cfg.wf ∧ s.key.wf ∧ s.key.within s.klen ∧ s.klen ≤ s.cfg.keyMax ∧ s.code.wf ∧
    s.code.within codeSize ∧ (s.kovf = true → s.klen = s.cfg.keyMax) ∧
    (s.valid = true → ∀ i, i < codeSize → 0x30 ≤ (s.readByte .code i).toNat ∧ (s.readByte .code i).toNat ≤ 0x39) ∧
    (s.valid = false → ∀ i, i < codeSize → s.readByte .code i = 0x00#8) ∧
    (s.valid = true → spelledNumber s.codeBytes < 1000000)) (ms : List HostMove) : StateInv (facing s ms) := by
  obtain ⟨h1, h2, h3, h4, h5, h6, h7, h8, h9, h10⟩ := h
  exact ⟨h1, h2, fun c hc => Nat.lt_of_lt_of_le (h3 c hc) h4, h5, h6, h4, fun a ha => Memory.read_of_within h3 ha, h7, h8, h9,
    h10⟩

theorem inv_ready (ms : List HostMove) : StateInv (facing ready ms) :=
  inv_of_checks _ (by decide +kernel) ms

theorem inv_full (ms : List HostMove) : StateInv (facing full ms) :=
  inv_of_checks _ (by decide +kernel) ms

theorem inv_loaded (ms : List HostMove) : StateInv (facing loaded ms) :=
  inv_of_checks _ (by decide +kernel) ms

/-! ### Witnesses: for each statement with hypotheses, an input that meets them, at the ends of each clause's range -/

theorem witness_DecodeAnswersOneOfEight : (0x20FF#16 : Cmd).toNat / 256 = 0x20 ∧ (0x2100#16 : Cmd).toNat / 256 = 0x21 ∧
    (0x4107#16 : Cmd).toNat / 8 = 0x4100 / 8 ∧ (0x4108#16 : Cmd).toNat / 8 ≠ 0x4100 / 8 ∧
    (0x1000#16 : Cmd).toNat = 0x1000 ∧ (0x1100#16 : Cmd).toNat = 0x1100 ∧ (0x3000#16 : Cmd).toNat = 0x3000 ∧
    (0x4000#16 : Cmd).toNat = 0x4000 ∧ (0x4108#16 : Cmd).toNat ∉ [0x1000, 0x1100, 0x3000, 0x4000] ∧
    (0x4108#16 : Cmd).toNat / 256 ≠ 0x20 ∧ (0x4108#16 : Cmd).toNat / 256 ≠ 0x21 := by decide

theorem witness_StepRunsDecodedCommand : (facing ready [.command 0x2031#16, .reset]).resetSeen = true ∧
    (facing ready [.command 0x2031#16, .reset]).moves = .command 0x2031#16 :: [.reset] ∧
    decode 0x2031#16 = .ok (.keyb 0x31#8) := by decide

theorem witness_UnassignedOpcodeFaults : (facing ready [.command 0x1200#16]).resetSeen = true ∧
    (facing ready [.command 0x1200#16]).moves = .command 0x1200#16 :: [] ∧
    (0x1200#16 : Cmd).toNat / 256 ∉ [0x10, 0x11, 0x20, 0x21, 0x30, 0x40, 0x41] := by decide

theorem witness_ReservedOperandFaults_z : (facing ready [.command 0x4001#16]).resetSeen = true ∧
    (facing ready [.command 0x4001#16]).moves = .command 0x4001#16 :: [] ∧
    (0x4001#16 : Cmd).toNat / 256 ∈ [0x10, 0x11, 0x30, 0x40] ∧ (0x4001#16 : Cmd).toNat % 256 ≠ 0 := by decide

theorem witness_ReservedOperandFaults_x : (facing full [.command 0x4106#16]).resetSeen = true ∧
    (facing full [.command 0x4106#16]).moves = .command 0x4106#16 :: [] ∧ (0x4106#16 : Cmd).toNat / 256 = 0x41 ∧
    5 < (0x4106#16 : Cmd).toNat % 256 ∧ (0x4106#16 : Cmd).toNat / 8 = 0x4100 / 8 ∧
    (0x21FF#16 : Cmd).toNat / 256 ∈ [0x20, 0x21] := by decide

/-- The must-be-zero clauses of the statements about `NOP`, `CLR`, `GO`, `RDST` and `RDCH`, at both ends of the range. -/
theorem witness_must_be_zero : (0x1001#16 : Cmd).toNat / 256 = 0x10 ∧ (0x1001#16 : Cmd).toNat % 256 ≠ 0 ∧
    (0x11FF#16 : Cmd).toNat / 256 = 0x11 ∧ (0x11FF#16 : Cmd).toNat % 256 ≠ 0 ∧
    (0x3001#16 : Cmd).toNat / 256 = 0x30 ∧ (0x3001#16 : Cmd).toNat % 256 ≠ 0 ∧
    (0x40FF#16 : Cmd).toNat / 256 = 0x40 ∧ (0x40FF#16 : Cmd).toNat % 256 ≠ 0 ∧
    (0x4108#16 : Cmd).toNat / 256 = 0x41 ∧ 7 < (0x4108#16 : Cmd).toNat % 256 := by decide

theorem witness_NothingHappensBetweenMoves : ready.moves = [] := by decide

theorem witness_ResetZeroisesEverything : (facing full [.reset, .command 0x1000#16]).moves = .reset :: [.command 0x1000#16] := by
  decide

theorem witness_CommandBeforeFirstResetIsRefused :
    ({ facing full [.command 0x1000#16] with resetSeen := false } : State).resetSeen = false ∧
    ({ facing full [.command 0x1000#16] with resetSeen := false } : State).moves = .command 0x1000#16 :: [] := by decide

/-- Two engines alike in their elements, with different histories. -/
theorem witness_OutcomeDependsOnElementsAndWord : (facing ready [.command 0x3000#16]).resetSeen = true ∧
    (facing (answered ready 0x0200#16) [.command 0x3000#16, .reset]).resetSeen = true ∧
    (facing ready [.command 0x3000#16]).cfg = (facing (answered ready 0x0200#16) [.command 0x3000#16, .reset]).cfg ∧
    (facing ready [.command 0x3000#16]).toEngine =
      (facing (answered ready 0x0200#16) [.command 0x3000#16, .reset]).toEngine ∧
    (facing ready [.command 0x3000#16]).moves = .command 0x3000#16 :: [] ∧
    (facing (answered ready 0x0200#16) [.command 0x3000#16, .reset]).moves = .command 0x3000#16 :: [.reset] := by decide

theorem witness_EngineNeverStops : (facing full [.command 0x3000#16, .command 0xFFFF#16]).resetSeen = true := by decide

theorem witness_EveryResponseIsProducible : Good (facing full [.command 0x2066#16]) ∧
    (facing full [.command 0x2066#16]).moves = .command 0x2066#16 :: [] := ⟨⟨rfl, inv_full _⟩, rfl⟩

/-- One byte of room, and none. -/
theorem witness_KeybAppendsOrOverflows :
    (machine (rep 0x31#8 19) false 0#64 []).key.wf ∧
    (machine (rep 0x31#8 19) false 0#64 []).klen < (machine (rep 0x31#8 19) false 0#64 []).cfg.keyMax ∧
    (machine (rep 0x31#8 20) false 0#64 []).key.wf ∧
    (machine (rep 0x31#8 20) false 0#64 []).cfg.keyMax ≤ (machine (rep 0x31#8 20) false 0#64 []).klen := by decide

theorem witness_GoWithoutSecretWipes : (machine [] false 5#64 (ascii "755224".toList)).klen = 0 ∧ full.klen ≠ 0 ∧
    full.kovf = true := by decide

theorem witness_GoProducesTheCode : ready.code.wf ∧ 1 ≤ ready.klen ∧ ready.kovf = false ∧ loaded.code.wf ∧ 1 ≤ loaded.klen ∧
    loaded.kovf = false := by decide

theorem witness_ReadingTwiceGivesTheSame : Instr.rdch 5#3 = .nop ∨ Instr.rdch 5#3 = .rdst ∨ ∃ idx, Instr.rdch 5#3 = .rdch idx :=
  .inr (.inr ⟨5#3, rfl⟩)

theorem witness_CodeChangesOnlyByGoAndClr : Instr.keyb 0x31#8 ≠ .go ∧ Instr.keyb 0x31#8 ≠ .clr := by decide

theorem witness_OverflowFlagIsSticky_set : (machine sourceKey false 0#64 []).kovf = false ∧
    (after (exec (.keyb 0x66#8) (machine sourceKey false 0#64 []))).map (fun t => t.kovf) = some true := by decide +kernel

theorem witness_OverflowFlagIsSticky_cleared : full.kovf = true ∧ (after (exec .go full)).map (fun t => t.kovf) = some false ∧
    (after (exec .clr full)).map (fun t => t.kovf) = some false := by decide +kernel

theorem witness_OutcomesInTheResetState : Config.wf ⟨20⟩ ∧ Config.wf ⟨2 ^ 61 - 65⟩ ∧ (5#3).toNat ≤ 5 ∧ (0#3).toNat ≤ 5 := by decide

/-- A word of each fault code, 0 to 4, in good states. -/
theorem witness_FaultCodeOfEveryWord : (facing ready [.command 0x4100#16]).klen ≤ 20 ∧ (facing full [.command 0x2066#16]).klen = 20 ∧
    (onWord ready 0x4100#16).map State.rsps = some [0x0037#16] ∧ (onWord full 0x3000#16).map State.rsps = some [0x0100#16] ∧
    (onWord full 0x3001#16).map State.rsps = some [0x0200#16] ∧ (onWord loaded 0x4105#16).map State.rsps = some [0x0300#16] ∧
    (onWord full 0x2066#16).map State.rsps = some [0x0400#16] := by decide +kernel

theorem witness_FaultsChangeWhatTheTableLists : Good (facing full [.command 0x3000#16]) ∧ Good (facing full [.command 0x3001#16]) ∧
    Good (facing loaded [.command 0x4105#16]) ∧ Good (facing full [.command 0x2066#16]) ∧
    rspFault 0x0100#16 = 1#4 ∧ rspFault 0x0200#16 = 2#4 ∧ rspFault 0x0300#16 = 3#4 ∧ rspFault 0x0400#16 = 4#4 :=
  ⟨⟨rfl, inv_full _⟩, ⟨rfl, inv_full _⟩, ⟨rfl, inv_loaded _⟩, ⟨rfl, inv_full _⟩, by decide, by decide, by decide, by decide⟩

theorem witness_ResetStateMeetsInv : Config.wf ⟨20⟩ ∧ Config.wf ⟨2 ^ 61 - 65⟩ ∧ Config.wf Config.standard := by decide

theorem witness_StepKeepsInv : StateInv (facing ready [.command 0x2032#16]) ∧
    after (step (facing ready [.command 0x2032#16])) =
      some (answered (machine [0x31#8, 0x32#8] false 7#64 (ascii "755224".toList)) 0x0000#16) :=
  ⟨inv_ready _, by decide +kernel⟩

theorem witness_ReachableStatesMeetInv : Config.wf ⟨20⟩ ∧
    after (runSteps 2 { State.reset with cfg := ⟨20⟩, moves := [.command 0x2031#16, .command 0x4000#16] }) =
      some { machine [0x31#8] false 0#64 [] with rsps := [0x0000#16, 0x0002#16] } := ⟨by decide, by decide +kernel⟩

theorem witness_StatusReadsSixValues : StateInv full ∧ StateInv ready ∧ StateInv loaded :=
  ⟨inv_full [], inv_ready [], inv_loaded []⟩

theorem witness_NoStepWritesTheParameter : (after (runSteps 1 (facing full [.reset]))).map State.cfg = some full.cfg := by
  decide +kernel

theorem witness_CanonicalBuffersAreDetermined : loaded.key.wf ∧ full.key.wf ∧ ∀ a, loaded.key.read a = full.key.read a :=
  ⟨by decide, by decide, fun _ => rfl⟩

/-- A load that overflows, with the other commands between its bytes. -/
theorem witness_LoadingASecret : (machine [] false 9#64 []).resetSeen = true ∧ (machine [] false 9#64 []).key.wf ∧
    (machine [] false 9#64 []).klen = 0 ∧ (machine [] false 9#64 []).kovf = false ∧
    (∀ i ∈ [Instr.nop, .rdst, .ctrb 1#8, .rdch 6#3] ++ List.replicate 21 (Instr.keyb 0x31#8), allowedWhileLoading i = true) ∧
    ([Instr.nop, .rdst, .ctrb 1#8, .rdch 6#3] ++ List.replicate 21 (Instr.keyb 0x31#8))[24]? = some (.keyb 0x31#8) := by decide

/-- Nine bytes, the first of them lost, and eight. -/
theorem witness_LoadingACounter : (machine sourceKey false 0#64 []).resetSeen = true ∧ (machine sourceKey false 0#64 []).ctr = 0#64 ∧
    (∀ i ∈ [Instr.nop, .rdst, .keyb 1#8] ++ List.replicate 9 (Instr.ctrb 0x12#8), allowedWhileLoading i = true) ∧
    ((List.replicate 8 (Instr.ctrb 0x12#8)).filterMap counterByteOf).length = 8 := by decide

theorem witness_EightPushesReplaceTheCounter : full.resetSeen = true := by decide

theorem witness_ReadingAWholeCode : Good full ∧ full.valid = true ∧ Good loaded ∧ 1 ≤ loaded.klen ∧ loaded.kovf = false :=
  ⟨⟨rfl, inv_full []⟩, rfl, ⟨rfl, inv_loaded []⟩, by decide, rfl⟩

/-- A secret that just fits, on an engine that an earlier user left overflowed. -/
theorem witness_HotpCallReturnsTheCode : full.resetSeen = true ∧
    1 ≤ (KeyText.keys "12345678901234567890".toList).bytes.length ∧
    (KeyText.keys "12345678901234567890".toList).bytes.length ≤ full.cfg.keyMax := by decide

/-- An engine with the operands of `ready`, another Code, another parameter and another history. -/
def readyElsewhere : State := { answered (machine [0x31#8] false 7#64 []) 0x0200#16 with cfg := Config.standard }

theorem witness_CodeDependsOnSecretAndCounterOnly : ready.code.wf ∧ readyElsewhere.code.wf ∧ 1 ≤ ready.klen ∧
    ready.klen = readyElsewhere.klen ∧ ready.kovf = false ∧ readyElsewhere.kovf = false ∧ ready.ctr = readyElsewhere.ctr ∧
    ∀ a, a < ready.klen → ready.readByte .key a = readyElsewhere.readByte .key a := by decide +kernel

/-- `ready` with another secret byte and another counter. -/
def readyOther : State := machine [0x77#8] false 8#64 (ascii "755224".toList)

/-- A read of the old Code, a `GO`, the status, a reset, a read: no new Code is read. -/
def readAndGo : List HostMove :=
  [.command 0x4100#16, .command 0x3000#16, .command 0x4000#16, .command 0x4106#16, .reset, .command 0x4105#16]

theorem witness_OperandsLeakOnlyThroughTheCode : (facing ready readAndGo).resetSeen = true ∧
    AlikeButOperands (facing ready readAndGo) (facing readyOther readAndGo) ∧ (facing ready readAndGo).moves = readAndGo ∧
    readsNoNewCode false readAndGo = true :=
  ⟨by decide, ⟨by decide +kernel, by decide +kernel, by decide +kernel, by decide +kernel,
    by decide +kernel, by decide +kernel, by decide +kernel, by decide +kernel⟩, rfl, by decide +kernel⟩

/-- `GO` then `RDCH 0` is shut out, and with a `CLR` between them it is not. -/
theorem test_readsNoNewCode : readsNoNewCode false [.command 0x3000#16, .command 0x4100#16] = false ∧
    readsNoNewCode false [.command 0x3000#16, .command 0x1100#16, .command 0x4105#16] = true := by decide +kernel

theorem witness_PaddingLayout : (rep 0x61#8 56).length < 2 ^ 61 := by decide

/-- The ends of the ranges of CounterMessageIsBigEndian, BlockWordsAreBigEndian, ScheduleRecurrence, Sha1Recurrences,
RotationLosesNoBit, DigestBytesOfTheChain, HmacPadsAndNesting, MaskAndReduce, RoundFunctionForms and PipelineLaws. -/
theorem witness_ranges : 7 < 8 ∧ 15 < 16 ∧ 16 ≤ 16 ∧ 79 < 80 ∧ 0 < 31 ∧ 31 < 32 ∧ 4 < 5 ∧ 3 < 4 ∧ 63 < 64 ∧
    30 < 31 ∧ 19 < 20 ∧ 39 < 40 ∧ 59 < 60 ∧ 999999 ≤ 999999 := by decide

/-- Also for `HashInputsInsideGo`. -/
theorem witness_KeyNormalisation : (rep 0x41#8 64).length ≤ 64 ∧ 64 < (rep 0x41#8 65).length ∧
    ([0x41#8] : List Byte).length + 63 ≤ 64 := by decide

/-- Two digests that differ outside the window and in the high nibble of byte 19. -/
theorem witness_PipelineReadsTheWindowOnly :
    (byteAt (bytesBe 0x000F423F 4 ++ rep 0#8 16) 19).toNat % 16 = (byteAt (bytesBe 0x000F423F 4 ++ rep 0xF0#8 16) 19).toNat % 16 ∧
    ∀ j, j < 4 → byteAt (bytesBe 0x000F423F 4 ++ rep 0#8 16) ((byteAt (bytesBe 0x000F423F 4 ++ rep 0#8 16) 19).toNat % 16 + j) =
      byteAt (bytesBe 0x000F423F 4 ++ rep 0xF0#8 16) ((byteAt (bytesBe 0x000F423F 4 ++ rep 0#8 16) 19).toNat % 16 + j) := by decide

end Sys2Proof.Tests
end

section
/-! SUPPORT. What a step that ends in a next state has done, said once as an inversion; what every such step keeps, every
run keeps; the rotation of SHA-1 tied to the library's. -/

namespace Sys2Proof.Machine

/-- Everything a step can have done when it ends in a next state, by the host's next move. -/
theorem step_next_cases {s t : State} (h : step s = .next t) :
    (s.moves = [] ∧ t = s) ∨
    (∃ rest, s.moves = .reset :: rest ∧ t = ({ s with moves := rest } : State).applyReset) ∨
    (∃ w rest, s.moves = .command w :: rest ∧ s.resetSeen = true ∧
      t = ({ s with moves := rest } : State).answered (engineStep s.cfg s.toEngine w)) := by
  match hm : s.moves with
  | [] =>
    rw [step_idle s hm] at h
    cases h
    exact .inl ⟨rfl, rfl⟩
  | .reset :: rest =>
    rw [step_reset s hm] at h
    cases h
    exact .inr (.inl ⟨rest, rfl, rfl⟩)
  | .command w :: rest =>
    obtain hr | hr := Bool.eq_false_or_eq_true s.resetSeen
    · rw [step_word s hm hr] at h
      cases h
      exact .inr (.inr ⟨w, rest, rfl, hr, rfl⟩)
    · rw [step_refused s hm hr] at h
      cases h

theorem step_cfg {s t : State} (h : step s = .next t) : t.cfg = s.cfg := by
  obtain ⟨-, rfl⟩ | ⟨rest, -, rfl⟩ | ⟨w, rest, -, -, rfl⟩ := step_next_cases h
  · rfl
  · exact applyReset_cfg _
  · exact answered_cfg _ _

/-- A run of one step more that ends in a next state takes its first step to a next state. -/
theorem runSteps_succ_next {n : Nat} {s t : State} (h : runSteps (n + 1) s = .next t) :
    ∃ u, step s = .next u ∧ runSteps n u = .next t := by
  cases hs : step s with
  | next u => exact ⟨u, rfl, (runSteps_succ_of_step n hs).symm.trans h⟩
  | fault r => cases r
  | refused r =>
    rw [runSteps_succ, hs] at h
    cases h

/-- The induction over runs, packaged once: what every step keeps, every run keeps. -/
theorem runSteps_keeps {P : State → Prop} (hstep : ∀ {s t : State}, step s = .next t → P s → P t) {n : Nat} {s t : State}
    (h : runSteps n s = .next t) (hs : P s) : P t := by
  induction n generalizing s with
  | zero =>
    rw [runSteps_zero] at h
    cases h
    exact hs
  | succ n ih =>
    obtain ⟨u, hu, hrun⟩ := runSteps_succ_next h
    exact ih hrun (hstep hu hs)

/-- `ROTL32` is the library's rotation at every amount below the word's width (R8). -/
theorem rotl32_eq_rotateLeft (x : Word32) {n : Nat} (h : n < 32) : rotl32 x n = x.rotateLeft n :=
  (BitVec.rotateLeft_eq_rotateLeftAux_of_lt h).symm

theorem getLsbD_rotl32_shifted (x : Word32) {n i : Nat} (h : i + n < 32) : (rotl32 x n).getLsbD (i + n) = x.getLsbD i := by
  rw [rotl32_eq_rotateLeft x (by omega), BitVec.getLsbD_rotateLeft_of_le (by omega)]
  simp [h]

theorem getLsbD_rotl32_wrapped (x : Word32) {n i : Nat} (hn : n < 32) (hi : i < 32) (h : 32 ≤ i + n) :
    (rotl32 x n).getLsbD (i + n - 32) = x.getLsbD i := by
  have hlow : i + n - 32 < n := by omega
  have hback : 32 - n + (i + n - 32) = i := by omega
  rw [rotl32_eq_rotateLeft x hn, BitVec.getLsbD_rotateLeft_of_le hn]
  simp [hlow, hback]

end Sys2Proof.Machine
end

section
/-! The statements on the step's shape, its parameter and the notation of 00_scope.md. -/

namespace Sys2Proof.Machine

/-- Settles O12: each of the two steps is the engine's own step (`step_word`), applied to the same parameter, elements and
word. -/
theorem outcomeDependsOnElementsAndWord : Obligations.OutcomeDependsOnElementsAndWord := by
  intro s₁ s₂ w rest₁ rest₂ hr₁ hr₂ hcfg heng hm₁ hm₂
  have hstep₂ := step_word s₂ hm₂ hr₂
  rw [← hcfg, ← heng] at hstep₂
  exact ⟨_, _, (engineStep s₁.cfg s₁.toEngine w).2, step_word s₁ hm₁ hr₁, hstep₂, rfl, rfl, rfl, rfl, rfl, rfl, hcfg⟩

/-- Settles O34: every step keeps the parameter (`step_cfg`), so every run does. -/
theorem noStepWritesTheParameter : Obligations.NoStepWritesTheParameter := by
  intro n s t h
  exact runSteps_keeps (P := fun u => u.cfg = s.cfg) (fun hstep hu => (step_cfg hstep).trans hu) h rfl

/-- Settles O47: a bit either stays inside the word and moves up by `n`, or leaves at the top and comes back at the bottom. -/
theorem rotationLosesNoBit : Obligations.RotationLosesNoBit := by
  intro x n i _ hn hi
  by_cases h : i + n < 32
  · rw [Nat.mod_eq_of_lt h, getLsbD_rotl32_shifted x h]
  · have hmod : (i + n) % 32 = i + n - 32 := by omega
    rw [hmod, getLsbD_rotl32_wrapped x hn hi (Nat.le_of_not_lt h)]

/-- Settles O5: both sides are the engine's reply to the decoded command, handed to the host. -/
theorem stepRunsDecodedCommand : Obligations.StepRunsDecodedCommand := by
  intro s w rest i hr hm hd
  rw [step_word s hm hr, exec_eq, engineStep_ok s.cfg s.toEngine hd]

/-- Settles O58: `step_word` at a state written out field by field. -/
theorem stepIsTheEngineStep : Obligations.StepIsTheEngineStep := by
  intro c e w rest rs
  exact step_word _ rfl rfl

end Sys2Proof.Machine
end

section
/-! SUPPORT. What a command leaves of the engine, coarser than `engineCommand_cases`; the number of `STATUS`; a Code read back
after it was written, its digits and the number they spell; the canonical form of a buffer determines it. -/

namespace Sys2Proof.Machine

/-- The engine a command leaves, the response set aside: only six shapes, with the commands and the guards of each. -/
theorem engineCommand_fst_cases (c : Config) (e : Engine) (i : Instr) :
    (engineCommand c e i).1 = e ∨
    ((i = .go ∨ i = .clr) ∧ (engineCommand c e i).1 = e.zeroise) ∨
    (i = .go ∧ (engineCommand c e i).1 = e.produceCode) ∨
    (∃ b, i = .keyb b ∧ e.klen < c.keyMax ∧ (engineCommand c e i).1 = e.pushKey b) ∨
    (∃ b, i = .keyb b ∧ c.keyMax ≤ e.klen ∧ (engineCommand c e i).1 = e.setOverflow) ∨
    (∃ b, i = .ctrb b ∧ (engineCommand c e i).1 = e.shiftCounter b) := by
  obtain ⟨-, h⟩ | ⟨hi, h⟩ | ⟨b, hi, hroom, h⟩ | ⟨b, hi, hfull, h⟩ | ⟨b, hi, h⟩ | ⟨hi, -, h⟩ | ⟨hi, -, -, h⟩ | ⟨-, h⟩ |
    ⟨idx, -, -, h⟩ | ⟨idx, -, -, -, h⟩ | ⟨idx, -, -, -, h⟩ := engineCommand_cases c e i
  · exact .inl (congrArg Prod.fst h)
  · exact .inr (.inl ⟨.inr hi, congrArg Prod.fst h⟩)
  · exact .inr (.inr (.inr (.inl ⟨b, hi, hroom, congrArg Prod.fst h⟩)))
  · exact .inr (.inr (.inr (.inr (.inl ⟨b, hi, Nat.le_of_not_lt hfull, congrArg Prod.fst h⟩))))
  · exact .inr (.inr (.inr (.inr (.inr ⟨b, hi, congrArg Prod.fst h⟩))))
  · exact .inr (.inl ⟨.inl hi, congrArg Prod.fst h⟩)
  · exact .inr (.inr (.inl ⟨hi, congrArg Prod.fst h⟩))
  · exact .inl (congrArg Prod.fst h)
  · exact .inl (congrArg Prod.fst h)
  · exact .inl (congrArg Prod.fst h)
  · exact .inl (congrArg Prod.fst h)

/-- The three flags of `STATUS` as the digits of its number (R18). -/
theorem toNat_status (e : Engine) : e.status.toNat = 4 * e.kovf.toNat + 2 * e.kne.toNat + e.valid.toNat := by
  unfold Engine.status
  cases e.kovf <;> cases e.kne <;> cases e.valid <;> rfl

/-- A byte string written to a buffer reads back whole. -/
theorem Memory.readBytes_writeBytes {m : Memory} (a : Nat) (bs : List Byte) (h : m.wf) :
    (m.writeBytes a bs).readBytes a bs.length = bs := by
  refine List.ext_getElem (Memory.length_readBytes _ _ _) fun i _ hi => ?_
  have hwindow : a ≤ a + i ∧ a + i < a + bs.length := by omega
  rw [← byteAt_of_lt, byteAt_readBytes _ _ hi, Memory.read_writeBytes a bs h, if_pos hwindow, Nat.add_sub_cancel_left,
    byteAt_of_lt hi]

@[simp] theorem length_loadedCode (e : Engine) : e.loadedCode.length = codeSize := length_hotp _ _

theorem codeBytes_produceCode {e : Engine} (h : e.code.wf) : e.produceCode.codeBytes = e.loadedCode := by
  have hread := Memory.readBytes_writeBytes 0 e.loadedCode h
  rw [length_loadedCode] at hread
  exact (congrArg (Memory.readBytes · 0 codeSize) (produceCode_code e)).trans hread

theorem byteAt_codeBytes (e : Engine) {i : Nat} (h : i < codeSize) : byteAt e.codeBytes i = e.readByte .code i := by
  rw [Engine.codeBytes, Engine.memRead, byteAt_readBytes _ _ h, Nat.zero_add]
  rfl

theorem isDigitByte_digitChar {n : Nat} (h : n < 10) : isDigitByte (digitChar n) := by
  rw [isDigitByte, toNat_digitChar h]
  omega

theorem isDigitByte_byteAt_decFmt (v : Nat) {i : Nat} (h : i < 6) : isDigitByte (byteAt (decFmt v) i) := by
  rw [byteAt_decFmt v h]
  exact isDigitByte_digitChar (decDigit_lt v i)

/-- The formatter's digits spell the number it was given (R134, R136). -/
theorem spelledNumber_decFmt {v : Nat} (h : v < 1000000) : spelledNumber (decFmt v) = v := by
  have hterm : ∀ i ∈ List.range 6, ((byteAt (decFmt v) i).toNat - 0x30) * 10 ^ (5 - i) = decDigit v i * 10 ^ (5 - i) := by
    intro i hi
    rw [byteAt_decFmt v (List.mem_range.mp hi), toNat_digitChar (decDigit_lt v i), Nat.add_sub_cancel_left]
  rw [spelledNumber, List.map_congr_left hterm]
  simp only [decDigit, List.range_succ, List.range_zero, List.map_append, List.map_nil, List.map_cons, List.sum_append,
    List.sum_nil, List.sum_cons]
  omega

theorem spelledNumber_hotp (k : List Byte) (c : Word64) : spelledNumber (hotp k c) = truncValue (hotpDigest k c) :=
  spelledNumber_decFmt (truncValue_lt _)

theorem Memory.read_cons_self (i : Nat) (b : Byte) (m : Memory) : Memory.read ((i, b) :: m) i = b := if_pos rfl

/-- The first listed index is the lowest one that does not read as unlisted, so no buffer that reads alike starts above it. -/
theorem Memory.head_le_of_read_eq {i j : Nat} {b d : Byte} {m m' : Memory} (h : Memory.wf ((i, b) :: m))
    (h' : Memory.wf ((j, d) :: m')) (hread : ∀ a, Memory.read ((i, b) :: m) a = Memory.read ((j, d) :: m') a) : j ≤ i := by
  obtain ⟨hb, -, -⟩ := Memory.wf_cons.mp h
  obtain ⟨-, habove, -⟩ := Memory.wf_cons.mp h'
  by_contra hlt
  have hlt : i < j := Nat.lt_of_not_le hlt
  have hzero : Memory.read ((j, d) :: m') i = 0#8 :=
    Memory.read_of_above (List.forall_mem_cons.mpr ⟨hlt, Memory.above_mono habove (Nat.le_of_lt hlt)⟩)
  exact hb ((Memory.read_cons_self i b m).symm.trans ((hread i).trans hzero))

/-- The bytes below two equal entries read alike when the whole buffers do: at the entry's index both read as unlisted. -/
theorem Memory.read_tail_eq {i : Nat} {b d : Byte} {m m' : Memory} (h : m.above i) (h' : m'.above i)
    (hread : ∀ a, Memory.read ((i, b) :: m) a = Memory.read ((i, d) :: m') a) (a : Nat) : m.read a = m'.read a := by
  by_cases ha : i = a
  · subst ha
    rw [Memory.read_of_above h, Memory.read_of_above h']
  · have hra := hread a
    rwa [Memory.read_cons, Memory.read_cons, if_neg ha, if_neg ha] at hra

/-- A canonical buffer that reads 0x00 everywhere lists nothing. -/
theorem Memory.eq_nil_of_read_zero {m : Memory} (h : m.wf) (hread : ∀ a, m.read a = 0#8) : m = [] := by
  cases m with
  | nil => rfl
  | cons c m =>
    obtain ⟨hb, -, -⟩ := Memory.wf_cons.mp h
    exact absurd ((Memory.read_cons_self c.1 c.2 m).symm.trans (hread c.1)) hb

/-- The canonical form is extensional. -/
theorem Memory.eq_of_read_eq {m m' : Memory} (h : m.wf) (h' : m'.wf) (hread : ∀ a, m.read a = m'.read a) : m = m' := by
  induction m generalizing m' with
  | nil => exact (Memory.eq_nil_of_read_zero h' fun a => (hread a).symm).symm
  | cons c m ih =>
    cases m' with
    | nil => exact Memory.eq_nil_of_read_zero h hread
    | cons c' m' =>
      obtain ⟨i, b⟩ := c
      obtain ⟨j, d⟩ := c'
      have hij : i = j :=
        Nat.le_antisymm (Memory.head_le_of_read_eq h' h fun a => (hread a).symm) (Memory.head_le_of_read_eq h h' hread)
      subst hij
      obtain ⟨-, habove, hm⟩ := Memory.wf_cons.mp h
      obtain ⟨-, habove', hm'⟩ := Memory.wf_cons.mp h'
      have hbd : b = d := by simpa [Memory.read_cons] using hread i
      rw [hbd, ih hm hm' (Memory.read_tail_eq habove habove' hread)]

end Sys2Proof.Machine
end

section
/-! SUPPORT. The invariants of R22, kept by each shape a command can leave the engine in, by the engine's step, and by the
step of the machine. -/

namespace Sys2Proof.Machine

variable {c : Config} {e : Engine}

/-- All elements zero: the invariants ask nothing but the constraint on the parameter (R6). -/
theorem engineInv_reset (h : c.wf) : EngineInv c Engine.reset where
  cfg_wf       := h
  key_wf       := Memory.zeroised_wf
  key_within   := Memory.zeroised_within _
  code_wf      := Memory.zeroised_wf
  code_within  := Memory.zeroised_within _
  klen_le      := Nat.zero_le _
  key_above    := fun a _ => Memory.read_zeroised a
  kovf_full    := fun h => nomatch h
  valid_digits := fun h => nomatch h
  invalid_zero := fun _ i _ => Memory.read_zeroised i
  valid_range  := fun h => nomatch h

theorem EngineInv.zeroise (h : EngineInv c e) : EngineInv c e.zeroise := engineInv_reset h.cfg_wf

/-- A push with room lands at `KLEN`, which then lies below the new `KLEN`; `KOVF` is 0 because `KLEN` is not `KEY_MAX`. -/
theorem EngineInv.pushKey (h : EngineInv c e) (b : Byte) (hroom : e.klen < c.keyMax) : EngineInv c (e.pushKey b) :=
  { h with
    key_wf := Memory.wf_writeBytes e.klen [b] h.key_wf
    key_within := Memory.within_writeBytes [b] hroom h.key_within
    klen_le := hroom
    key_above := fun a ha => by
      have hout : ¬ (e.klen ≤ a ∧ a < e.klen + [b].length) := fun hin => Nat.not_lt.mpr ha hin.2
      have hread := Memory.read_writeBytes e.klen [b] h.key_wf a
      rw [if_neg hout] at hread
      exact hread.trans (h.key_above a (Nat.le_of_succ_le ha))
    kovf_full := fun hk => absurd (h.kovf_full hk) (Nat.ne_of_lt hroom) }

theorem EngineInv.setOverflow (h : EngineInv c e) (hfull : c.keyMax ≤ e.klen) : EngineInv c e.setOverflow :=
  { h with kovf_full := fun _ => Nat.le_antisymm h.klen_le hfull }

/-- No invariant speaks of `CTR`. -/
theorem EngineInv.shiftCounter (h : EngineInv c e) (b : Byte) : EngineInv c (e.shiftCounter b) := { h with }

/-- The Code `GO` writes is six digits that spell a remainder by one million; the inputs are wiped. -/
theorem EngineInv.produceCode (h : EngineInv c e) : EngineInv c e.produceCode where
  cfg_wf       := h.cfg_wf
  key_wf       := Memory.zeroised_wf
  key_within   := Memory.zeroised_within _
  code_wf      := Memory.wf_writeBytes 0 e.loadedCode h.code_wf
  code_within  := Memory.within_writeBytes e.loadedCode (by rw [length_loadedCode, size_code, Nat.zero_add]) h.code_within
  klen_le      := Nat.zero_le _
  key_above    := fun a _ => Memory.read_zeroised a
  kovf_full    := fun hk => nomatch (produceCode_kovf e).symm.trans hk
  valid_digits := fun _ i hi => by
    rw [← byteAt_codeBytes _ hi, codeBytes_produceCode h.code_wf]
    exact isDigitByte_byteAt_decFmt _ hi
  invalid_zero := fun hv => nomatch (produceCode_valid e).symm.trans hv
  valid_range  := fun _ => by
    rw [codeBytes_produceCode h.code_wf, Engine.loadedCode, spelledNumber_hotp]
    exact truncValue_lt _

theorem engineInv_engineCommand (h : EngineInv c e) (i : Instr) : EngineInv c (engineCommand c e i).1 := by
  obtain heq | ⟨-, heq⟩ | ⟨-, heq⟩ | ⟨b, -, hroom, heq⟩ | ⟨b, -, hfull, heq⟩ | ⟨b, -, heq⟩ := engineCommand_fst_cases c e i
  all_goals rw [heq]
  · exact h
  · exact h.zeroise
  · exact h.produceCode
  · exact h.pushKey b hroom
  · exact h.setOverflow hfull
  · exact h.shiftCounter b

theorem engineInv_engineStep (h : EngineInv c e) (w : Cmd) : EngineInv c (engineStep c e w).1 := by
  cases hd : decode w with
  | ok i =>
    rw [engineStep_ok c e hd]
    exact engineInv_engineCommand h i
  | error x =>
    rw [engineStep_illegal c e hd, raise_fst]
    exact h

theorem stateInv_of_step {s t : State} (h : step s = .next t) (hs : StateInv s) : StateInv t := by
  obtain ⟨-, rfl⟩ | ⟨rest, -, rfl⟩ | ⟨w, rest, -, -, rfl⟩ := step_next_cases h
  · exact hs
  · exact hs.zeroise
  · exact engineInv_engineStep hs w

/-- `KOVF` is never 1 over an empty buffer, because `KEY_MAX` is at least 20 (R18, R22 item 3). -/
theorem EngineInv.kne_of_kovf (h : EngineInv c e) (hk : e.kovf = true) : e.kne = true := by
  have hfull := h.kovf_full hk
  have hwf := h.cfg_wf
  have hne : e.klen ≠ 0 := by omega
  exact bne_iff_ne.mpr hne

end Sys2Proof.Machine
end

section
/-! The statements on the state: its invariants, who writes the Code and `KOVF`, and the canonical form of a buffer. -/

namespace Sys2Proof.Machine

/-- Settles O31: each of the three things a step can do keeps the invariants. -/
theorem stepKeepsInv : Obligations.StepKeepsInv := fun _ _ hs hstep => stateInv_of_step hstep hs

/-- Settles O30: the reset state of the engine, whatever its parameter. -/
theorem resetStateMeetsInv : Obligations.ResetStateMeetsInv := fun _ hc => engineInv_reset hc

/-- Settles O32: the invariants hold at reset and every step keeps them, so they hold after every run. -/
theorem reachableStatesMeetInv : Obligations.ReachableStatesMeetInv := by
  intro c ms n t hc hrun
  exact runSteps_keeps (P := StateInv) stateInv_of_step hrun (engineInv_reset hc)

/-- Settles O25: the shapes that write `CODE` or `VALID`, `zeroise` and `produceCode`, come from `GO` and `CLR` alone. -/
theorem codeChangesOnlyByGoAndClr : Obligations.CodeChangesOnlyByGoAndClr := by
  intro i s hgo hclr
  suffices h : (engineCommand s.cfg s.toEngine i).1.valid = s.valid ∧ (engineCommand s.cfg s.toEngine i).1.code = s.code from
    ⟨_, exec_eq s i, h.1, fun a => congrArg (Memory.read · a) h.2⟩
  obtain heq | ⟨hi | hi, -⟩ | ⟨hi, -⟩ | ⟨b, -, -, heq⟩ | ⟨b, -, -, heq⟩ | ⟨b, -, heq⟩ :=
    engineCommand_fst_cases s.cfg s.toEngine i
  · simp [heq]
  · exact absurd hi hgo
  · exact absurd hi hclr
  · exact absurd hi hgo
  · simp [heq]
  · simp [heq]
  · simp [heq]

/-- Settles O26: of the shapes a command leaves, only `setOverflow` has `KOVF` 1 afresh, and only `zeroise` and `produceCode`
have it 0 afresh. -/
theorem overflowFlagIsSticky : Obligations.OverflowFlagIsSticky := by
  intro i s
  refine ⟨_, exec_eq s i, ?_⟩
  obtain heq | ⟨hi, heq⟩ | ⟨hi, heq⟩ | ⟨b, -, -, heq⟩ | ⟨b, hi, hfull, heq⟩ | ⟨b, -, heq⟩ :=
    engineCommand_fst_cases s.cfg s.toEngine i
  all_goals rw [answered_toEngine, heq]
  · simp +contextual
  · simp [hi]
  · simp [hi]
  · simp +contextual
  · simp [hi, hfull]
  · simp +contextual

/-- Settles O33: of the eight values of three flags, `KOVF` without `KNE` is excluded by the invariants. -/
theorem statusReadsSixValues : Obligations.StatusReadsSixValues := by
  intro s hs
  rw [toNat_status]
  cases hk : s.kovf with
  | false => cases s.kne <;> cases s.valid <;> decide
  | true =>
    rw [hs.kne_of_kovf hk]
    cases s.valid <;> decide

/-- Settles O35: the canonical form is extensional (`Memory.eq_of_read_eq`). -/
theorem canonicalBuffersAreDetermined : Obligations.CanonicalBuffersAreDetermined := fun _ _ => Memory.eq_of_read_eq

end Sys2Proof.Machine
end

section
/-! SUPPORT. The commands that leave the engine as it is, and what a command does that follows one of them. -/

namespace Sys2Proof.Machine

/-- On each of its three paths `RDCH` only answers (R141). -/
@[simp] theorem rdch_fst (e : Engine) (idx : BitVec 3) : (e.rdch idx).1 = e := by
  by_cases hres : 5 < idx.toNat
  · rw [rdch_reserved e idx hres]; rfl
  · cases hv : e.valid with
    | false => rw [rdch_noCode e idx hres hv]; rfl
    | true => rw [rdch_reads e idx hres hv]; rfl

theorem engineCommand_fst_of_read (c : Config) (e : Engine) {i : Instr} (hi : i = .nop ∨ i = .rdst ∨ ∃ idx, i = .rdch idx) :
    (engineCommand c e i).1 = e := by
  obtain rfl | rfl | ⟨idx, rfl⟩ := hi
  · rfl
  · rfl
  · exact rdch_fst e idx

/-- The reply rests on the parameter and the elements alone, so a command that follows one which left the engine as it was is
answered as it would have been in its place (R9). -/
theorem exec_answered_of_fst {s : State} {p : Reply} (h : p.1 = s.toEngine) (i : Instr) :
    exec i (s.answered p) = .next ((s.answered p).answered (engineCommand s.cfg s.toEngine i)) := by
  rw [exec_eq, answered_cfg, answered_toEngine, h]

end Sys2Proof.Machine
end

section
/-! The statement on the commands without a side effect (R37). -/

namespace Sys2Proof.Machine

/-- Settles O24: the first of the two leaves the engine as it was, so the second gets the same reply. -/
theorem readingTwiceGivesTheSame : Obligations.ReadingTwiceGivesTheSame := by
  intro i s hi
  have hkeep := engineCommand_fst_of_read s.cfg s.toEngine hi
  exact ⟨_, _, (engineCommand s.cfg s.toEngine i).2, exec_eq s i, exec_answered_of_fst hkeep i, answered_rsps _ _,
    answered_rsps _ _, hkeep, hkeep⟩

end Sys2Proof.Machine
end

section
/-! SUPPORT. The decoder and the encoder as inverses; the word of each instruction as a number, and from it the words that are
illegal; the word of an illegal or placed command in a step. -/

namespace Sys2Proof

/-- The decoder answers with an instruction exactly on that instruction's two fields (R53, R55). -/
theorem decodeFields_eq_ok_iff {op imm : Byte} {i : Instr} : decodeFields op imm = .ok i ↔ i.op = op ∧ i.imm = imm := by
  constructor
  · intro h
    unfold decodeFields decodeZ decodeX at h
    split_ifs at h with hop himm hop himm hop hop hop himm hop himm hop himm <;> cases h
    · exact ⟨hop.symm, himm.symm⟩
    · exact ⟨hop.symm, himm.symm⟩
    · exact ⟨hop.symm, rfl⟩
    · exact ⟨hop.symm, rfl⟩
    · exact ⟨hop.symm, himm.symm⟩
    · exact ⟨hop.symm, himm.symm⟩
    · exact ⟨hop.symm, imm_of_highField_zero imm himm⟩
  · rintro ⟨rfl, rfl⟩
    cases i with
    | rdch idx => simp [decodeFields, decodeX, Instr.op, Instr.imm]
    | _ => rfl

theorem decode_eq_ok_iff {w : Cmd} {i : Instr} : decode w = .ok i ↔ encode i = w := by
  rw [decode, decodeFields_eq_ok_iff]
  constructor
  · rintro ⟨hop, himm⟩
    rw [encode, hop, himm, packWord_fields]
  · rintro rfl
    exact ⟨(opField_packWord _ _).symm, (immField_packWord _ _).symm⟩

@[simp] theorem decode_encode (i : Instr) : decode (encode i) = .ok i := decode_eq_ok_iff.mpr rfl

/-! The word of each instruction as a number (R53). -/

theorem toNat_encode_nop : (encode .nop).toNat = 0x1000 := rfl
theorem toNat_encode_clr : (encode .clr).toNat = 0x1100 := rfl
theorem toNat_encode_keyb (b : Byte) : (encode (.keyb b)).toNat = 0x2000 + b.toNat := by
  simp [encode, toNat_packWord, Instr.op, Instr.imm]
theorem toNat_encode_ctrb (b : Byte) : (encode (.ctrb b)).toNat = 0x2100 + b.toNat := by
  simp [encode, toNat_packWord, Instr.op, Instr.imm]
theorem toNat_encode_go : (encode .go).toNat = 0x3000 := rfl
theorem toNat_encode_rdst : (encode .rdst).toNat = 0x4000 := rfl

theorem toNat_encode_rdch (idx : BitVec 3) : (encode (.rdch idx)).toNat = 0x4100 + idx.toNat := by
  have himm : (0#5 ++ idx).toNat = idx.toNat := by
    rw [BitVec.toNat_append]
    simp
  simpa [encode, toNat_packWord, Instr.op, Instr.imm] using himm

theorem decode_eq_ok_of_toNat {w : Cmd} {i : Instr} (h : (encode i).toNat = w.toNat) : decode w = .ok i :=
  decode_eq_ok_iff.mpr (BitVec.eq_of_toNat_eq h)

theorem decode_keyb {w : Cmd} (h : w.toNat / 256 = 0x20) : decode w = .ok (.keyb (BitVec.ofNat 8 w.toNat)) := by
  apply decode_eq_ok_of_toNat
  rw [toNat_encode_keyb, BitVec.toNat_ofNat]
  omega

theorem decode_ctrb {w : Cmd} (h : w.toNat / 256 = 0x21) : decode w = .ok (.ctrb (BitVec.ofNat 8 w.toNat)) := by
  apply decode_eq_ok_of_toNat
  rw [toNat_encode_ctrb, BitVec.toNat_ofNat]
  omega

theorem decode_rdch {w : Cmd} (h : w.toNat / 8 = 0x4100 / 8) : decode w = .ok (.rdch (BitVec.ofNat 3 w.toNat)) := by
  apply decode_eq_ok_of_toNat
  rw [toNat_encode_rdch, BitVec.toNat_ofNat]
  omega

/-- A word that is the word of no instruction is illegal: the eighth answer of R55. -/
theorem exists_decode_error_of_toNat {w : Cmd} (hz : w.toNat ∉ [0x1000, 0x1100, 0x3000, 0x4000]) (hk : w.toNat / 256 ≠ 0x20)
    (hc : w.toNat / 256 ≠ 0x21) (hx : w.toNat / 8 ≠ 0x4100 / 8) : ∃ e, decode w = .error e := by
  cases hd : decode w with
  | error e => exact ⟨e, rfl⟩
  | ok i =>
    have hw := congrArg BitVec.toNat (decode_eq_ok_iff.mp hd)
    exfalso
    cases i with
    | nop => exact hz (by simp [← hw, toNat_encode_nop])
    | clr => exact hz (by simp [← hw, toNat_encode_clr])
    | keyb b => rw [toNat_encode_keyb] at hw; omega
    | ctrb b => rw [toNat_encode_ctrb] at hw; omega
    | go => exact hz (by simp [← hw, toNat_encode_go])
    | rdst => exact hz (by simp [← hw, toNat_encode_rdst])
    | rdch idx => rw [toNat_encode_rdch] at hw; omega

/-- The illegal words by their two fields (R56, R58): an unassigned opcode, or an assigned one whose format wants zero bits
that are not zero. -/
theorem exists_decode_error_of_fields {w : Cmd}
    (h : w.toNat / 256 ∉ [0x10, 0x11, 0x20, 0x21, 0x30, 0x40, 0x41] ∨
      (w.toNat / 256 ∈ [0x10, 0x11, 0x30, 0x40] ∧ w.toNat % 256 ≠ 0) ∨ (w.toNat / 256 = 0x41 ∧ 7 < w.toNat % 256)) :
    ∃ e, decode w = .error e := by
  simp only [List.mem_cons, List.not_mem_nil, or_false] at h
  apply exists_decode_error_of_toNat
  · simp only [List.mem_cons, List.not_mem_nil, or_false]
    omega
  all_goals omega

@[simp] theorem tableWord_toNat (w : Cmd) : tableWord 16 w.toNat = w := by
  rw [tableWord, Nat.mod_eq_of_lt w.isLt, BitVec.ofNat_toNat, BitVec.setWidth_eq]

/-! The opcode map: a row selects the words that decode to its instructions. -/

theorem row_selects_encode (i : Instr) : i.row.selects (encode i) = true := by
  cases i with
  | nop => exact Laws.RowSelects.nop.2
  | clr => exact Laws.RowSelects.clr.2
  | keyb b => exact (Laws.RowSelects.keyb b).2
  | ctrb b => exact (Laws.RowSelects.ctrb b).2
  | go => exact Laws.RowSelects.go.2
  | rdst => exact Laws.RowSelects.rdst.2
  | rdch idx => exact (Laws.RowSelects.rdch idx).2

theorem and_fullMask (w : Cmd) : w &&& 0xFFFF#16 = w := BitVec.and_allOnes

/-- The mask of a format-X row clears the three bits of the index. -/
theorem and_indexMask (w : Cmd) : w &&& 0xFFF8#16 = w >>> 3 <<< 3 := by
  ext i hi
  interval_cases i <;> simp

theorem opcode_of_and_highMask {w : Cmd} {op : Byte} (h : w &&& 0xFF00#16 = packWord op 0#8) : w.toNat / 256 = op.toNat := by
  rw [← packWord_fields w, Laws.RowSelects.packWord_and_highMask] at h
  have hop := congrArg opField h
  rw [opField_packWord, opField_packWord] at hop
  rw [← toNat_opField, hop]

/-- A word that a row selects decodes to an instruction of that row, whatever its operand. -/
theorem exists_decode_of_selects {i : Instr} {w : Cmd} (h : i.row.selects w = true) :
    ∃ j, decode w = .ok j ∧ j.row = i.row := by
  have hm : w &&& i.row.mask = i.row.pattern := beq_iff_eq.mp h
  have hz (hmask : i.row.mask = 0xFFFF#16) (henc : i.row.pattern = encode i) : ∃ j, decode w = .ok j ∧ j.row = i.row := by
    rw [hmask, and_fullMask, henc] at hm
    exact ⟨i, decode_eq_ok_iff.mpr hm.symm, rfl⟩
  cases i with
  | nop => exact hz rfl rfl
  | clr => exact hz rfl rfl
  | keyb b => exact ⟨_, decode_keyb (opcode_of_and_highMask (op := 0x20#8) hm), rfl⟩
  | ctrb b => exact ⟨_, decode_ctrb (opcode_of_and_highMask (op := 0x21#8) hm), rfl⟩
  | go => exact hz rfl rfl
  | rdst => exact hz rfl rfl
  | rdch idx =>
    have hx : w >>> 3 <<< 3 = 0x4100#16 := (and_indexMask w).symm.trans hm
    have hn := congrArg BitVec.toNat hx
    rw [BitVec.toNat_shiftLeft, BitVec.toNat_ushiftRight] at hn
    simp only [Nat.shiftRight_eq_div_pow, Nat.shiftLeft_eq, BitVec.toNat_ofNat] at hn
    exact ⟨_, decode_rdch (by omega), rfl⟩

/-- R53 and R55 together: a row selects exactly the words that decode to one of its instructions. -/
theorem row_selects_iff {i : Instr} {w : Cmd} : i.row.selects w = true ↔ ∃ j, decode w = .ok j ∧ j.row = i.row := by
  refine ⟨exists_decode_of_selects, ?_⟩
  rintro ⟨j, hd, hrow⟩
  rw [← hrow, ← decode_eq_ok_iff.mp hd]
  exact row_selects_encode j

theorem exists_row_of_mem {r : OpRow} (h : r ∈ opcodeTable) : ∃ i : Instr, r = i.row := by
  simp only [opcodeTable, List.mem_cons, List.not_mem_nil, or_false] at h
  obtain h | h | h | h | h | h | h := h <;> exact ⟨_, h⟩

/-- The seven rows differ, and each instruction has one of them. -/
theorem filter_row_eq (i : Instr) : opcodeTable.filter (fun r => i.row = r) = [i.row] := by cases i <;> rfl

end Sys2Proof

namespace Sys2Proof.Machine

theorem step_illegal {s : State} {w : Cmd} {rest : List HostMove} (hr : s.resetSeen = true) (hm : s.moves = .command w :: rest)
    (h : ∃ x, decode w = .error x) : step s = .next { s with moves := rest, rsps := s.rsps ++ [0x0200#16] } := by
  obtain ⟨x, hx⟩ := h
  rw [step_word s hm hr, engineStep_illegal s.cfg s.toEngine hx]
  rfl

/-- The reserved indexes decode, and `RDCH` itself answers as an illegal word is answered (R58). -/
theorem step_rdch_reserved {s : State} {w : Cmd} {rest : List HostMove} {idx : BitVec 3} (hr : s.resetSeen = true)
    (hm : s.moves = .command w :: rest) (hd : decode w = .ok (.rdch idx)) (hidx : 5 < idx.toNat) :
    step s = .next { s with moves := rest, rsps := s.rsps ++ [0x0200#16] } := by
  rw [step_word s hm hr, engineStep_ok s.cfg s.toEngine hd, engineCommand, rdch_reserved s.toEngine idx hidx]
  rfl

end Sys2Proof.Machine
end

section
/-! The statements on the encoding of a single word, and on what an illegal word does. -/

namespace Sys2Proof.Machine

/-- Settles O1: the decoder reads the two fields, the encoder packs them (`decodeFields_eq_ok_iff`). -/
theorem decodeInvertsEncode : Obligations.DecodeInvertsEncode := fun _ _ => decode_eq_ok_iff

/-- Settles O2: each of the seven commands has the word of its clause (`decode_eq_ok_of_toNat`), and no other word is the word
of an instruction. -/
theorem decodeAnswersOneOfEight : Obligations.DecodeAnswersOneOfEight := by
  intro w
  refine ⟨fun h => decode_eq_ok_of_toNat h.symm, fun h => decode_eq_ok_of_toNat h.symm, decode_keyb, decode_ctrb,
    fun h => decode_eq_ok_of_toNat h.symm, fun h => decode_eq_ok_of_toNat h.symm, decode_rdch, ?_⟩
  intro hz hk hc hx
  obtain ⟨e, he⟩ := exists_decode_error_of_toNat hz hk hc hx
  refine ⟨⟨e, he⟩, fun s => ?_⟩
  rw [execWord_eq, engineStep_illegal s.cfg s.toEngine he]
  rfl

/-- Settles O3: a row of the map selects the words that decode to its instructions (`row_selects_iff`), and the seven rows
differ. -/
theorem opcodeRowsAreDisjoint : Obligations.OpcodeRowsAreDisjoint := by
  intro w
  cases hd : decode w with
  | error e =>
    refine List.filter_eq_nil_iff.mpr fun r hr hsel => ?_
    obtain ⟨i, rfl⟩ := exists_row_of_mem hr
    obtain ⟨j, hj, -⟩ := row_selects_iff.mp hsel
    exact nomatch hd.symm.trans hj
  | ok i =>
    refine (List.filter_congr fun r hr => ?_).trans (filter_row_eq i)
    obtain ⟨j, rfl⟩ := exists_row_of_mem hr
    rw [Bool.eq_iff_iff, row_selects_iff, decide_eq_true_iff, hd]
    simp

/-- Settles O8: the reserved operands of formats Z and X are illegal words, but for the indexes 6 and 7, which `RDCH` refuses
itself. -/
theorem reservedOperandFaults : Obligations.ReservedOperandFaults := by
  refine ⟨?_, fun w h => exists_decode_error_of_fields (.inr h), fun w h => ⟨_, decode_rdch h⟩, ?_⟩
  · rintro s w rest hr hm (hz | ⟨hop, himm⟩)
    · exact step_illegal hr hm (exists_decode_error_of_fields (.inr (.inl hz)))
    · by_cases hidx : 7 < w.toNat % 256
      · exact step_illegal hr hm (exists_decode_error_of_fields (.inr (.inr ⟨hop, hidx⟩)))
      · refine step_rdch_reserved hr hm (decode_rdch (by omega)) ?_
        rw [BitVec.toNat_ofNat]
        omega
  · intro w h
    simp only [List.mem_cons, List.not_mem_nil, or_false] at h
    obtain h | h := h
    · exact ⟨_, decode_keyb h⟩
    · exact ⟨_, decode_ctrb h⟩

/-- Settles O4: each word evaluated. -/
theorem sampleWordsDecode : Obligations.SampleWordsDecode := by
  unfold Obligations.SampleWordsDecode
  decide

/-- Settles O6: the placed word is the encoding itself (`tableWord_toNat`), and it decodes to its instruction. -/
theorem placedWordRunsNext : Obligations.PlacedWordRunsNext := by
  intro s i
  have hm : (s.withFetchWord 16 (encode i).toNat).moves = .command (encode i) :: s.moves := by
    rw [State.withFetchWord, tableWord_toNat, presenting_moves]
  rw [step_word _ hm rfl, exec_eq, engineStep_ok _ _ (decode_encode i)]
  rfl

/-- Settles O7: a word with an unassigned opcode is illegal. -/
theorem unassignedOpcodeFaults : Obligations.UnassignedOpcodeFaults :=
  fun _ _ _ hr hm h => step_illegal hr hm (exists_decode_error_of_fields (.inl h))

end Sys2Proof.Machine
end

section
/-! SUPPORT. What a sequence of commands does to the engine, the tie of that to a run of the machine, and the sequences of
R61: a counter, a secret, the reading of a Code, a whole call. -/

namespace Sys2Proof.Machine

/-- What these commands, one after another, leave of the engine, and what they are answered. -/
def engineCommands (c : Config) : Engine → List Instr → Engine × List Rsp
  | e, [] => (e, [])
  | e, i :: cs =>
    ((engineCommands c (engineCommand c e i).1 cs).1,
      (engineCommand c e i).2 :: (engineCommands c (engineCommand c e i).1 cs).2)

/-- The machine after commands that left this engine and were answered so. -/
def State.answeredAll (s : State) (p : Engine × List Rsp) : State := { s with toEngine := p.1, rsps := s.rsps ++ p.2 }

section engine
variable {c : Config} {e e' e'' : Engine}

theorem engineCommands_cons {i : Instr} {cs : List Instr} {r : Rsp} {rs : List Rsp} (hi : engineCommand c e i = (e', r))
    (hcs : engineCommands c e' cs = (e'', rs)) : engineCommands c e (i :: cs) = (e'', r :: rs) := by
  rw [engineCommands, hi, hcs]

theorem engineCommands_append {cs ds : List Instr} {rs qs : List Rsp} (hcs : engineCommands c e cs = (e', rs))
    (hds : engineCommands c e' ds = (e'', qs)) : engineCommands c e (cs ++ ds) = (e'', rs ++ qs) := by
  induction cs generalizing e rs with
  | nil =>
    cases hcs
    exact hds
  | cons i cs ih =>
    cases hcs
    exact engineCommands_cons rfl (ih rfl)

end engine

theorem step_sending_cons {s : State} (i : Instr) (cs : List Instr) (hr : s.resetSeen = true) :
    step (s.sending (i :: cs)) = .next ((s.answered (engineCommand s.cfg s.toEngine i)).sending cs) := by
  rw [step_word _ (sending_cons s i cs) hr, engineStep_ok _ _ (decode_encode i)]
  rfl

/-- Commands sent to an engine that has been reset are taken in order and answered one by one (R9, R40). -/
theorem runSteps_sending {s : State} (cs : List Instr) (hr : s.resetSeen = true) :
    runSteps cs.length (s.sending cs) = .next (s.answeredAll (engineCommands s.cfg s.toEngine cs)) := by
  induction cs generalizing s with
  | nil => simp [State.answeredAll, engineCommands]
  | cons i cs ih =>
    have hrest := ih (s := s.answered (engineCommand s.cfg s.toEngine i)) hr
    rw [List.length_cons, runSteps_succ_of_step _ (step_sending_cons i cs hr), hrest, State.answeredAll, answered_rsps,
      List.append_assoc]
    rfl

/-! ### Loading a counter -/

/-- One byte pushed, as a number: the wrap of 64 bits loses the old top byte (R81). -/
theorem toNat_shiftLeft_or_byteOperand64 (c : Word64) (b : Byte) :
    ((c <<< 8) ||| byteOperand64 b).toNat = (c.toNat * 256 + b.toNat) % 2 ^ 64 := by
  have hdisj : (c <<< 8) &&& byteOperand64 b = 0#64 := by
    ext i hi
    by_cases h : i < 8
    · simp [h]
    · simp [byteOperand64, h, BitVec.getLsbD_of_ge b i (by omega)]
  rw [← BitVec.add_eq_or_of_and_eq_zero _ _ hdisj, BitVec.toNat_add, BitVec.toNat_shiftLeft, Nat.shiftLeft_eq, byteOperand64,
    BitVec.toNat_setWidth]
  omega

/-- A counter after a byte string is pushed: its old number moved up, the string's number below it, modulo 2^64 (R83). -/
def pushedCounter (c : Word64) (bs : List Byte) : Word64 := BitVec.ofNat 64 (c.toNat * 256 ^ bs.length + bigEndianValue bs)

@[simp] theorem pushedCounter_nil (c : Word64) : pushedCounter c [] = c := by simp [pushedCounter]

theorem pushedCounter_concat (c : Word64) (bs : List Byte) (b : Byte) :
    pushedCounter c (bs ++ [b]) = (pushedCounter c bs <<< 8) ||| byteOperand64 b := by
  have hnumber : c.toNat * 256 ^ (bs ++ [b]).length + bigEndianValue (bs ++ [b]) =
      (c.toNat * 256 ^ bs.length + bigEndianValue bs) * 256 + b.toNat := by
    rw [bigEndianValue_concat, List.length_append, List.length_singleton]
    ring
  apply BitVec.eq_of_toNat_eq
  rw [toNat_shiftLeft_or_byteOperand64, pushedCounter, pushedCounter, hnumber, BitVec.toNat_ofNat, BitVec.toNat_ofNat]
  omega

/-- Eight bytes push the whole old counter out. -/
theorem pushedCounter_bytesBe (c v : Word64) : pushedCounter c (bytesBe v.toNat 8) = v := by
  apply BitVec.eq_of_toNat_eq
  rw [pushedCounter, length_bytesBe, bigEndianValue_bytesBe, BitVec.toNat_ofNat]
  omega

theorem engineCommands_ctrb (c : Config) (e : Engine) (bs : List Byte) : engineCommands c e (bs.map .ctrb) =
    ({ e with ctr := pushedCounter e.ctr bs }, List.replicate bs.length 0x0000#16) := by
  induction bs using List.reverseRecOn with
  | nil =>
    rw [pushedCounter_nil]
    rfl
  | append_singleton bs b ih =>
    rw [List.map_append, pushedCounter_concat, List.length_append, List.length_singleton, List.replicate_succ']
    exact engineCommands_append ih rfl

/-- `CTR64 v` leaves `v`, whatever the counter held (R61). -/
theorem engineCommands_loadCounter (c : Config) (e : Engine) (v : Word64) :
    engineCommands c e (loadCounter v) = ({ e with ctr := v }, List.replicate 8 0x0000#16) := by
  rw [loadCounter, engineCommands_ctrb, pushedCounter_bytesBe, length_bytesBe]

/-! ### Loading a secret -/

/-- A secret that fits is appended to what is loaded already (R82). -/
theorem engineCommands_loadSecret {c : Config} {e : Engine} (bs : List Byte) (h : e.klen + bs.length ≤ c.keyMax) :
    engineCommands c e (loadSecret bs) = ({ e with key := e.key.writeBytes e.klen bs, klen := e.klen + bs.length },
      List.replicate bs.length 0x0000#16) := by
  induction bs generalizing e with
  | nil => rfl
  | cons b bs ih =>
    rw [List.length_cons] at h
    have hroom : e.klen < c.keyMax := by omega
    have hrest : (e.pushKey b).klen + bs.length ≤ c.keyMax := by
      rw [pushKey_klen]
      omega
    have hlen : e.klen + (bs.length + 1) = (e.pushKey b).klen + bs.length := by
      rw [pushKey_klen]
      omega
    rw [List.length_cons, hlen, List.replicate_succ]
    exact engineCommands_cons (keyb_room c e b hroom) (ih hrest)

/-! ### Reading a Code -/

theorem engineCommand_rdch (c : Config) {e : Engine} (hv : e.valid = true) {i : Nat} (hi : i < 6) :
    engineCommand c e (.rdch (BitVec.ofNat 3 i)) = (e, okWord (e.readByte .code i)) := by
  have hidx : (BitVec.ofNat 3 i).toNat = i := by
    rw [BitVec.toNat_ofNat]
    omega
  have hread := rdch_reads e (BitVec.ofNat 3 i) (by omega) hv
  rw [hidx] at hread
  exact hread

theorem engineCommands_rdch (c : Config) {e : Engine} (hv : e.valid = true) {is : List Nat} (his : ∀ i ∈ is, i < 6) :
    engineCommands c e (is.map fun i => .rdch (BitVec.ofNat 3 i)) = (e, is.map fun i => okWord (e.readByte .code i)) := by
  induction is with
  | nil => rfl
  | cons i is ih =>
    obtain ⟨hi, his⟩ := List.forall_mem_cons.mp his
    exact engineCommands_cons (engineCommand_rdch c hv hi) (ih his)

/-- With a Code, `RDCODE` is answered by its six bytes in order and changes nothing (R142). -/
theorem engineCommands_readCode (c : Config) {e : Engine} (hv : e.valid = true) :
    engineCommands c e readCode = (e, e.codeBytes.map fun b => b.setWidth 16) := by
  have hbytes : (e.codeBytes.map fun b => b.setWidth 16) = (List.range 6).map fun i => okWord (e.readByte .code i) := by
    refine (List.map_map ..).trans (List.map_congr_left fun i _ => ?_)
    exact congrArg (fun a => okWord (e.readByte .code a)) (Nat.zero_add i)
  rw [hbytes]
  exact engineCommands_rdch c hv fun i hi => List.mem_range.mp hi

/-! ### A whole call -/

/-- An engine that holds this secret and this counter, and nothing else. -/
def Engine.holding (bs : List Byte) (v : Word64) : Engine :=
  { Engine.reset with key := Memory.zeroised.writeBytes 0 bs, klen := bs.length, ctr := v }

theorem loadedCode_holding (bs : List Byte) (v : Word64) : (Engine.holding bs v).loadedCode = hotp bs v :=
  congrArg (hotp · v) (Memory.readBytes_writeBytes 0 bs Memory.zeroised_wf)

theorem codeBytes_produceCode_holding (bs : List Byte) (v : Word64) :
    (Engine.holding bs v).produceCode.codeBytes = hotp bs v :=
  (codeBytes_produceCode Memory.zeroised_wf).trans (loadedCode_holding bs v)

/-- A secret that fits and a counter, loaded into the reset state. -/
theorem engineCommands_load {c : Config} {bs : List Byte} (v : Word64) (h : bs.length ≤ c.keyMax) :
    engineCommands c Engine.reset (loadSecret bs ++ loadCounter v) =
      (Engine.holding bs v, List.replicate (bs.length + 8) 0x0000#16) := by
  have hklen : Engine.reset.klen + bs.length = bs.length := Nat.zero_add bs.length
  have hsecret := engineCommands_loadSecret bs (hklen.trans_le h)
  rw [hklen] at hsecret
  rw [← List.replicate_append_replicate]
  exact engineCommands_append hsecret (engineCommands_loadCounter c _ v)

theorem engineCommands_go_holding (c : Config) {bs : List Byte} (v : Word64) (hne : 1 ≤ bs.length) :
    engineCommands c (Engine.holding bs v) [.go] = ((Engine.holding bs v).produceCode, [0x0000#16]) :=
  engineCommands_cons (go_usable _ (Nat.ne_of_gt hne) rfl) rfl

/-- A whole call: its `CLR` makes the state it starts from irrelevant, and it leaves what `GO` makes of the secret and the
counter (R61). -/
theorem engineCommands_hotpCall {c : Config} (e : Engine) {bs : List Byte} (v : Word64) (hne : 1 ≤ bs.length)
    (h : bs.length ≤ c.keyMax) : engineCommands c e (hotpCall bs v) = ((Engine.holding bs v).produceCode,
      List.replicate (bs.length + 10) 0x0000#16 ++ (hotp bs v).map fun b => b.setWidth 16) := by
  have hclr : engineCommands c e [.clr] = (Engine.reset, List.replicate 1 0x0000#16) := rfl
  have hread := engineCommands_readCode c (produceCode_valid (Engine.holding bs v))
  rw [codeBytes_produceCode_holding] at hread
  have hcall := engineCommands_append (engineCommands_append (engineCommands_append hclr (engineCommands_load v h))
    (engineCommands_go_holding c v hne)) hread
  have hzeros : 1 + (bs.length + 8) + 1 = bs.length + 10 := by omega
  rw [List.replicate_append_replicate, ← List.replicate_succ', hzeros, ← List.append_assoc [Instr.clr]] at hcall
  exact hcall

end Sys2Proof.Machine
end

section
/-! The statements on the sequences of R61. -/

namespace Sys2Proof.Machine

/-- Settles O38: eight bytes push the old counter out (`engineCommands_loadCounter`). -/
theorem eightPushesReplaceTheCounter : Obligations.EightPushesReplaceTheCounter := by
  intro s v hr
  have hrun := runSteps_sending (Pseudo.ctr64 v).expand hr
  have hlen : (Pseudo.ctr64 v).expand.length = 8 := (List.length_map _).trans (length_bytesBe _ _)
  have hload : engineCommands s.cfg s.toEngine (Pseudo.ctr64 v).expand = _ := engineCommands_loadCounter s.cfg s.toEngine v
  rw [hlen, hload] at hrun
  exact ⟨_, hrun, rfl⟩

/-- Settles O40: the call leaves the engine that `GO` makes of the secret and the counter alone (`engineCommands_hotpCall`). -/
theorem hotpCallReturnsTheCode : Obligations.HotpCallReturnsTheCode := by
  intro s k v hr hne hfits
  have hrun := runSteps_sending (Pseudo.hotp k v).expand hr
  have hcall : engineCommands s.cfg s.toEngine (Pseudo.hotp k v).expand = _ :=
    engineCommands_hotpCall s.toEngine v hne hfits
  rw [hcall] at hrun
  exact ⟨_, hrun, (List.append_assoc ..).symm, produceCode_klen _, produceCode_kovf _, produceCode_ctr _,
    produceCode_valid _, fun a => Memory.read_zeroised a, codeBytes_produceCode_holding _ _, rfl, rfl⟩

end Sys2Proof.Machine
end

section
/-! SUPPORT. The response words of a good state (R54): those of a success by their data byte, those of a fault. -/

namespace Sys2Proof.Machine

/-- The data bytes of a success in a good state: the six values of `STATUS`, 0x00 among them, and the ten digits (R54). -/
def producibleData : List Nat :=
  [0x00, 0x01, 0x02, 0x03, 0x06, 0x07, 0x30, 0x31, 0x32, 0x33, 0x34, 0x35, 0x36, 0x37, 0x38, 0x39]

theorem okWord_mem_producible {d : Byte} (h : d.toNat ∈ producibleData) : okWord d ∈ producible := by
  have hsub : producibleData.map (fun n => okWord (BitVec.ofNat 8 n)) ⊆ producible := by decide
  have hmem := hsub (List.mem_map_of_mem h)
  rwa [BitVec.ofNat_toNat, BitVec.setWidth_eq] at hmem

theorem okWord_zero_mem_producible : okWord 0x00#8 ∈ producible := okWord_mem_producible (by decide)

theorem okWord_status_mem_producible {s : State} (hs : StateInv s) : okWord s.status ∈ producible := by
  have hsix : [0x00, 0x01, 0x02, 0x03, 0x06, 0x07] ⊆ producibleData := by decide
  exact okWord_mem_producible (hsix (statusReadsSixValues s hs))

theorem okWord_digit_mem_producible {d : Byte} (h : isDigitByte d) : okWord d ∈ producible := by
  obtain ⟨hlow, hhigh⟩ := h
  refine okWord_mem_producible ?_
  simp only [producibleData, List.mem_cons, List.not_mem_nil, or_false]
  omega

theorem faultWord_mem_producible (f : EngineFault) : faultWord f ∈ producible := by cases f <;> decide

theorem engineCommand_snd_mem_producible {s : State} (hs : StateInv s) (i : Instr) :
    (engineCommand s.cfg s.toEngine i).2 ∈ producible := by
  obtain ⟨-, h⟩ | ⟨-, h⟩ | ⟨b, -, -, h⟩ | ⟨b, -, -, h⟩ | ⟨b, -, h⟩ | ⟨-, -, h⟩ | ⟨-, -, -, h⟩ | ⟨-, h⟩ | ⟨idx, -, -, h⟩ |
    ⟨idx, -, -, -, h⟩ | ⟨idx, -, hidx, hv, h⟩ := engineCommand_cases s.cfg s.toEngine i
  all_goals rw [h]
  · exact okWord_zero_mem_producible
  · exact okWord_zero_mem_producible
  · exact okWord_zero_mem_producible
  · exact faultWord_mem_producible _
  · exact okWord_zero_mem_producible
  · exact faultWord_mem_producible _
  · exact okWord_zero_mem_producible
  · exact okWord_status_mem_producible hs
  · exact faultWord_mem_producible _
  · exact faultWord_mem_producible _
  · exact okWord_digit_mem_producible (hs.valid_digits hv idx.toNat (Nat.lt_succ_of_le (Nat.le_of_not_lt hidx)))

theorem engineStep_snd_mem_producible {s : State} (hs : StateInv s) (w : Cmd) :
    (engineStep s.cfg s.toEngine w).2 ∈ producible := by
  cases hd : decode w with
  | ok i =>
    rw [engineStep_ok _ _ hd]
    exact engineCommand_snd_mem_producible hs i
  | error x =>
    rw [engineStep_illegal _ _ hd]
    exact faultWord_mem_producible _

/-- The listed words have the shape of R54: four zero bits on top, and no data beside a fault code. -/
theorem producible_shape : ∀ r ∈ producible, r.toNat / 4096 = 0 ∧ (rspFault r ≠ 0#4 → rspData r = 0x00#8) :=
  List.forall_iff_forall_mem.mp (by decide)

end Sys2Proof.Machine
end

section
/-! The statement on the response words (R54). -/

namespace Sys2Proof.Machine

/-- Settles O14: the engine's reply is a listed word (`engineStep_snd_mem_producible`), and the listed words have that shape. -/
theorem everyResponseIsProducible : Obligations.EveryResponseIsProducible := by
  rintro s w rest ⟨hr, hs⟩ hm
  have hmem := engineStep_snd_mem_producible hs w
  obtain ⟨htop, hdata⟩ := producible_shape _ hmem
  exact ⟨_, _, step_word s hm hr, answered_rsps _ _, hmem, htop, hdata⟩

end Sys2Proof.Machine
end

section
/-! SUPPORT. The system commands (R70, R71): the machine after each, and what the buffers read once zeroised. -/

namespace Sys2Proof.Machine

@[simp] theorem readByte_zeroise (e : Engine) (sp : Space) (a : Nat) : e.zeroise.readByte sp a = 0x00#8 := by
  cases sp with
  | key => rw [readByte_key, zeroise_key, Memory.read_zeroised]
  | code => rw [readByte_code, zeroise_code, Memory.read_zeroised]

theorem exec_nop (s : State) : exec .nop s = .next { s with rsps := s.rsps ++ [0x0000#16] } := exec_eq s .nop

theorem exec_clr (s : State) : exec .clr s = .next (s.answered (s.toEngine.zeroise.ok 0x00#8)) := exec_eq s .clr

/-- The opcode of a command without operand, beside an operand byte that is not zero, is an illegal word (R58). -/
theorem exists_decode_error_of_operand {w : Cmd} (hop : w.toNat / 256 ∈ [0x10, 0x11, 0x30, 0x40]) (himm : w.toNat % 256 ≠ 0) :
    ∃ e, decode w = .error e := exists_decode_error_of_fields (.inr (.inl ⟨hop, himm⟩))

end Sys2Proof.Machine
end

section
/-! The statements on the system commands (R70, R71). -/

namespace Sys2Proof.Machine

/-- Settles O15: the engine's reply to `NOP` is its own state and 0x0000 (`exec_nop`). -/
theorem nopChangesNothing : Obligations.NopChangesNothing :=
  ⟨BitVec.eq_of_toNat_eq toNat_encode_nop, fun _ hop himm => exists_decode_error_of_operand (by simp [hop]) himm, exec_nop⟩

/-- Settles O16: `CLR` zeroises the engine (`exec_clr`), and the zeroised engine is the reset state (`zeroise_eq_reset`). -/
theorem clrGivesTheResetState : Obligations.ClrGivesTheResetState := by
  refine ⟨BitVec.eq_of_toNat_eq toNat_encode_clr, fun _ hop himm => exists_decode_error_of_operand (by simp [hop]) himm,
    fun s => ?_⟩
  exact ⟨_, exec_clr s, answered_rsps _ _, zeroise_klen _, zeroise_kovf _, zeroise_ctr _, zeroise_valid _,
    readByte_zeroise _ .key, readByte_zeroise _ .code, zeroise_eq_reset _, answered_cfg _ _, answered_moves _ _,
    answered_resetSeen _ _⟩

end Sys2Proof.Machine
end

section
/-! SUPPORT. The load commands (R80, R81): the machine after each, and the element each writes. Then sequences of them with
other commands between: how a sequence is answered command by command, the one induction over a load, and what a load leaves
of the secret (R82) and of the counter (R83). -/

namespace Sys2Proof.Machine

/-! ### The load commands -/

/-- A pushed byte is read at the index it was pushed to, every other index as before (R80). -/
theorem readByte_pushKey {e : Engine} (h : e.key.wf) (b : Byte) (a : Nat) :
    (e.pushKey b).readByte .key a = if a = e.pushIndex then b else e.readByte .key a :=
  Memory.read_write e.pushIndex b h a

theorem exec_keyb_room {s : State} (b : Byte) (h : s.klen < s.cfg.keyMax) :
    exec (.keyb b) s = .next (s.answered ((s.toEngine.pushKey b).ok 0x00#8)) := by
  rw [exec_eq, engineCommand, keyb_room _ _ b h]

theorem exec_keyb_full {s : State} (b : Byte) (h : s.cfg.keyMax ≤ s.klen) :
    exec (.keyb b) s = .next { s with kovf := true, rsps := s.rsps ++ [0x0400#16] } := by
  rw [exec_eq, engineCommand, keyb_full _ _ b (Nat.not_lt.mpr h)]
  rfl

theorem keyb_ctr (c : Config) (e : Engine) (b : Byte) : (e.keyb c b).1.ctr = e.ctr := by
  by_cases hroom : e.klen < c.keyMax
  · rw [keyb_room c e b hroom, ok_fst, pushKey_ctr]
  · rw [keyb_full c e b hroom, raise_fst, setOverflow_ctr]

theorem shiftLeft_or_byteOperand64 (v : Word64) (b : Byte) :
    (v <<< 8) ||| byteOperand64 b = BitVec.ofNat 64 (v.toNat * 256 + b.toNat) := by
  apply BitVec.eq_of_toNat_eq
  rw [toNat_shiftLeft_or_byteOperand64, BitVec.toNat_ofNat]

/-! ### Sequences with other commands between -/

section sequence
variable (c : Config) (e : Engine)

theorem engineCommands_concat (cs : List Instr) (i : Instr) :
    (engineCommands c e (cs ++ [i])).1 = (engineCommand c (engineCommands c e cs).1 i).1 :=
  congrArg Prod.fst (engineCommands_append (cs := cs) rfl rfl)

/-- Each command is answered as the engine answers it that the commands before it left (R9). -/
theorem getElem?_engineCommands_snd (cs : List Instr) (n : Nat) :
    (engineCommands c e cs).2[n]? = cs[n]?.map fun i => (engineCommand c (engineCommands c e (cs.take n)).1 i).2 := by
  induction cs generalizing e n with
  | nil => rfl
  | cons i cs ih =>
    cases n with
    | zero => rfl
    | succ n => exact ih _ n

@[simp] theorem length_engineCommands_snd (cs : List Instr) : (engineCommands c e cs).2.length = cs.length := by
  induction cs generalizing e with
  | nil => rfl
  | cons i cs ih => exact congrArg (· + 1) (ih _)

/-- The induction over a load, packaged once: what relates the engine to the bytes pushed so far, and is kept by every command
that may stand in a load, relates the engine after the load to all its bytes. -/
theorem engineCommands_keeps_load {byteOf : Instr → Option Byte} {P : Engine → List Byte → Prop}
    (hstep : ∀ {e bs i}, allowedWhileLoading i = true → P e bs → P (engineCommand c e i).1 (bs ++ [i].filterMap byteOf))
    (hstart : P e []) {cs : List Instr} (hcs : ∀ i ∈ cs, allowedWhileLoading i = true) :
    P (engineCommands c e cs).1 (cs.filterMap byteOf) := by
  induction cs using List.reverseRecOn with
  | nil => exact hstart
  | append_singleton cs i ih =>
    obtain ⟨hcs, hi⟩ := List.forall_mem_append.mp hcs
    rw [engineCommands_concat, List.filterMap_append]
    exact hstep (hi i (List.mem_singleton_self i)) (ih hcs)

end sequence

/-! ### Loading a secret -/

/-- The engine has had these bytes pushed since its secret was last wiped: as many of them as fit are stored in order, and
`KOVF` says whether there were more (R82). -/
structure SecretLoaded (c : Config) (e : Engine) (bs : List Byte) : Prop where
  key_wf    : e.key.wf
  klen_eq   : e.klen = min bs.length c.keyMax
  stored    : ∀ a, a < e.klen → e.readByte .key a = byteAt bs a
  kovf_eq   : e.kovf = decide (c.keyMax < bs.length)

section secret
variable {c : Config} {e : Engine} {bs : List Byte}

theorem secretLoaded_nil (hwf : e.key.wf) (hklen : e.klen = 0) (hkovf : e.kovf = false) : SecretLoaded c e [] where
  key_wf := hwf
  klen_eq := by simp [hklen]
  stored a ha := by omega
  kovf_eq := by simp [hkovf]

theorem SecretLoaded.klen_lt_iff (h : SecretLoaded c e bs) : e.klen < c.keyMax ↔ bs.length < c.keyMax := by
  have hklen := h.klen_eq
  omega

/-- With room, the pushed byte is stored behind all the bytes before it. -/
theorem SecretLoaded.pushKey (h : SecretLoaded c e bs) (b : Byte) (hroom : e.klen < c.keyMax) :
    SecretLoaded c (e.pushKey b) (bs ++ [b]) := by
  have hbs : bs.length < c.keyMax := h.klen_lt_iff.mp hroom
  have hklen : e.klen = bs.length := h.klen_eq.trans (Nat.min_eq_left (Nat.le_of_lt hbs))
  refine ⟨Memory.wf_writeBytes _ _ h.key_wf, ?_, fun a ha => ?_, ?_⟩
  · rw [pushKey_klen, hklen, List.length_append, List.length_singleton, Nat.min_eq_left hbs]
  · rw [readByte_pushKey h.key_wf]
    split
    next heq =>
      rw [heq, Engine.pushIndex, hklen]
      exact (byteAt_append_right bs [b] 0).symm
    next hne =>
      have hlt : a < e.klen := Nat.lt_of_le_of_ne (Nat.le_of_lt_succ ha) hne
      rw [h.stored a hlt, byteAt_append_left _ (hklen ▸ hlt)]
  · rw [pushKey_kovf, h.kovf_eq, List.length_append, List.length_singleton, decide_eq_decide]
    omega

/-- With the buffer full, the byte is lost and the stored ones stay. -/
theorem SecretLoaded.setOverflow (h : SecretLoaded c e bs) (b : Byte) (hfull : ¬ e.klen < c.keyMax) :
    SecretLoaded c e.setOverflow (bs ++ [b]) := by
  have hbs : c.keyMax ≤ bs.length := Nat.le_of_not_lt fun hlt => hfull (h.klen_lt_iff.mpr hlt)
  have hklen : e.klen = c.keyMax := h.klen_eq.trans (Nat.min_eq_right hbs)
  refine ⟨h.key_wf, ?_, fun a ha => ?_, ?_⟩
  · rw [setOverflow_klen, hklen, List.length_append, Nat.min_eq_right (Nat.le_add_right_of_le hbs)]
  · rw [setOverflow_klen] at ha
    rw [byteAt_append_left _ (by omega), ← h.stored a ha]
    rfl
  · rw [setOverflow_kovf, List.length_append, List.length_singleton, decide_eq_true (Nat.lt_succ_of_le hbs)]

theorem SecretLoaded.keyb (h : SecretLoaded c e bs) (b : Byte) : SecretLoaded c (e.keyb c b).1 (bs ++ [b]) := by
  by_cases hroom : e.klen < c.keyMax
  · rw [keyb_room c e b hroom]
    exact h.pushKey b hroom
  · rw [keyb_full c e b hroom]
    exact h.setOverflow b hroom

/-- Of the commands that may stand in a load, `KEYB` alone touches the secret. -/
theorem SecretLoaded.engineCommand {i : Instr} (hi : allowedWhileLoading i = true) (h : SecretLoaded c e bs) :
    SecretLoaded c (engineCommand c e i).1 (bs ++ [i].filterMap secretByteOf) := by
  have hsame : SecretLoaded c e (bs ++ []) := by rwa [List.append_nil]
  cases i with
  | nop => exact hsame
  | clr => cases hi
  | keyb b => exact h.keyb b
  | ctrb b => exact { hsame with }
  | go => cases hi
  | rdst => exact hsame
  | rdch idx => exact (rdch_fst e idx).symm ▸ hsame

theorem SecretLoaded.engineCommands (h : SecretLoaded c e []) {cs : List Instr}
    (hcs : ∀ i ∈ cs, allowedWhileLoading i = true) : SecretLoaded c (engineCommands c e cs).1 (cs.filterMap secretByteOf) :=
  engineCommands_keeps_load c e SecretLoaded.engineCommand h hcs

/-- The answer to a `KEYB` by the number of bytes pushed before it (R80). -/
theorem SecretLoaded.keyb_snd (h : SecretLoaded c e bs) (b : Byte) :
    (e.keyb c b).2 = if bs.length < c.keyMax then 0x0000#16 else 0x0400#16 := by
  split
  next hbs =>
    rw [keyb_room c e b (h.klen_lt_iff.mpr hbs)]
    rfl
  next hbs =>
    rw [keyb_full c e b fun hroom => hbs (h.klen_lt_iff.mp hroom)]
    rfl

end secret

/-! ### Loading a counter -/

/-- Of the commands that may stand in a load, `CTRB` alone touches the counter. -/
theorem engineCommand_pushedCounter {c : Config} {v : Word64} {e : Engine} {bs : List Byte} {i : Instr}
    (hi : allowedWhileLoading i = true) (h : e.ctr = pushedCounter v bs) :
    (engineCommand c e i).1.ctr = pushedCounter v (bs ++ [i].filterMap counterByteOf) := by
  have hsame : e.ctr = pushedCounter v (bs ++ []) := by rwa [List.append_nil]
  cases i with
  | nop => exact hsame
  | clr => cases hi
  | keyb b => exact (keyb_ctr c e b).trans hsame
  | ctrb b =>
    refine Eq.trans ?_ (pushedCounter_concat v bs b).symm
    rw [← h]
    rfl
  | go => cases hi
  | rdst => exact hsame
  | rdch idx => exact (congrArg Engine.ctr (rdch_fst e idx)).trans hsame

theorem engineCommands_pushedCounter (c : Config) (e : Engine) {cs : List Instr}
    (hcs : ∀ i ∈ cs, allowedWhileLoading i = true) :
    (engineCommands c e cs).1.ctr = pushedCounter e.ctr (cs.filterMap counterByteOf) :=
  engineCommands_keeps_load c e (P := fun e' bs => e'.ctr = pushedCounter e.ctr bs) engineCommand_pushedCounter
    (pushedCounter_nil e.ctr).symm hcs

theorem toNat_pushedCounter_zero (bs : List Byte) : (pushedCounter 0#64 bs).toNat = bigEndianValue bs % 2 ^ 64 := by
  rw [pushedCounter, BitVec.toNat_ofNat, BitVec.toNat_ofNat, Nat.zero_mod, Nat.zero_mul, Nat.zero_add]

/-- Eight bytes pushed into a zero counter are the bytes `GO` serialises it to: serialising inverts loading (R83, R92). -/
theorem counterMsg_pushedCounter_zero {bs : List Byte} (h : bs.length = 8) : counterMsg (pushedCounter 0#64 bs) = bs := by
  have hinverse : bytesBe (bigEndianValue bs) 8 = bs := h ▸ bytesBe_bigEndianValue bs
  have hvalue : bigEndianValue bs % 2 ^ 64 = bigEndianValue bs := by
    have hmod := bigEndianValue_bytesBe (bigEndianValue bs) 8
    rw [hinverse] at hmod
    exact hmod.symm
  rw [counterMsg, toNat_pushedCounter_zero, hvalue, hinverse]

end Sys2Proof.Machine
end

section
/-! The statements on the load commands and on loads (R80 to R83). -/

namespace Sys2Proof.Machine

/-- Settles O36: the run is the engine's commands one after another (`runSteps_sending`), after any number of them
the secret holds their bytes (`SecretLoaded.engineCommands`), and those before a `KEYB` decide its answer (`keyb_snd`). -/
theorem loadingASecret : Obligations.LoadingASecret := by
  intro s cs hr hwf hklen hkovf hcs
  have hstart : SecretLoaded s.cfg s.toEngine [] := secretLoaded_nil hwf hklen hkovf
  have hend := hstart.engineCommands hcs
  refine ⟨_, _, runSteps_sending cs hr, rfl, rfl, length_engineCommands_snd _ _ cs, hend.klen_eq, hend.stored, hend.kovf_eq,
    fun n b hn => ?_⟩
  have hbefore := hstart.engineCommands fun i hi => hcs i (List.mem_of_mem_take (i := n) hi)
  rw [getElem?_engineCommands_snd, hn]
  exact congrArg some (hbefore.keyb_snd b)

/-- Settles O17: `KEYB` pushes the byte (`exec_keyb_room`) or sets the flag (`exec_keyb_full`). -/
theorem keybAppendsOrOverflows : Obligations.KeybAppendsOrOverflows := by
  refine fun b s hwf => ⟨toNat_encode_keyb b, fun hroom => ?_, exec_keyb_full b⟩
  have hread := readByte_pushKey hwf b
  exact ⟨_, exec_keyb_room b hroom, (hread _).trans (if_pos rfl), fun a ha => (hread a).trans (if_neg ha), pushKey_klen _ b,
    pushKey_kovf _ b, pushKey_ctr _ b, pushKey_code _ b, pushKey_valid _ b, answered_cfg _ _, answered_resetSeen _ _,
    answered_moves _ _, answered_rsps _ _⟩

/-- Settles O37: the counter holds its bytes pushed into zero (`engineCommands_pushedCounter`). -/
theorem loadingACounter : Obligations.LoadingACounter := by
  intro s cs hr hctr hcs
  have hload := engineCommands_pushedCounter s.cfg s.toEngine hcs
  rw [hctr] at hload
  refine ⟨_, runSteps_sending cs hr, ?_, fun hlen => ?_⟩
  · exact (congrArg BitVec.toNat hload).trans (toNat_pushedCounter_zero _)
  · exact (congrArg counterMsg hload).trans (counterMsg_pushedCounter_zero hlen)

/-- Settles O18: the shift with the byte below it, as a number (`shiftLeft_or_byteOperand64`). -/
theorem ctrbShiftsOneByteIn : Obligations.CtrbShiftsOneByteIn := by
  refine fun b s => ⟨toNat_encode_ctrb b, ?_⟩
  rw [exec_eq, ← shiftLeft_or_byteOperand64]
  rfl

end Sys2Proof.Machine
end

section
/-! SUPPORT. `GO` (R90, R93): the machine after each of its two paths, the Code and the secret as bytes, and what the secret rests
on; the message of the HMAC byte by byte (R92). -/

namespace Sys2Proof.Machine

/-- The secret as the bytes of `KEY` below `KLEN`. -/
theorem secret_eq_map_readByte (e : Engine) : e.secret = (List.range e.klen).map fun a => e.readByte .key a := by
  refine List.map_congr_left fun a _ => ?_
  rw [Nat.zero_add]
  rfl

theorem secret_congr {e f : Engine} (hklen : e.klen = f.klen)
    (hkey : ∀ a, a < e.klen → e.readByte .key a = f.readByte .key a) : e.secret = f.secret := by
  rw [secret_eq_map_readByte, secret_eq_map_readByte, ← hklen]
  exact List.map_congr_left fun a ha => hkey a (List.mem_range.mp ha)

/-- The Code made by `GO` fills `CODE[0 .. 6)`. -/
theorem readByte_code_produceCode {e : Engine} (h : e.code.wf) (a : Nat) :
    e.produceCode.readByte .code a = if a < 6 then byteAt e.loadedCode a else e.readByte .code a := by
  have hread := Memory.read_writeBytes 0 e.loadedCode h a
  rw [length_loadedCode] at hread
  simpa [codeSize] using hread

theorem exec_go_unusable {s : State} (h : s.klen = 0 ∨ s.kovf = true) :
    exec .go s = .next (s.answered (s.toEngine.zeroise.raise .invalidSecret)) := by
  rw [exec_eq, engineCommand, go_unusable _ h]

theorem exec_go_usable {s : State} (hklen : 1 ≤ s.klen) (hkovf : s.kovf = false) :
    exec .go s = .next (s.answered (s.toEngine.produceCode.ok 0x00#8)) := by
  rw [exec_eq, engineCommand, go_usable _ (Nat.ne_of_gt hklen) hkovf]

/-- Both paths of `GO` wipe the secret (R90, R93). -/
@[simp] theorem klen_go (e : Engine) : e.go.1.klen = 0 := by
  by_cases h : e.klen = 0 ∨ e.kovf = true
  · rw [go_unusable e h, raise_fst, zeroise_klen]
  · obtain ⟨hklen, hkovf⟩ := not_or.mp h
    rw [go_usable e hklen (Bool.eq_false_of_not_eq_true hkovf), ok_fst, produceCode_klen]

theorem byteAt_counterMsg (c : Word64) {i : Nat} (h : i < 8) :
    byteAt (counterMsg c) i = c.extractLsb' (56 - 8 * i) 8 := by
  have hshift : 8 * (8 - 1 - i) = 56 - 8 * i := by omega
  apply BitVec.eq_of_toNat_eq
  rw [counterMsg, byteAt_bytesBe _ h, beByte, hshift, BitVec.toNat_ofNat, BitVec.extractLsb'_toNat,
    Nat.shiftRight_eq_div_pow]

end Sys2Proof.Machine
end

section
/-! The statements on `GO` (R90 to R94). -/

namespace Sys2Proof.Machine

/-- Settles O19: on the faulting path (`exec_go_unusable`) the engine is zeroised, which is the reset state. -/
theorem goWithoutSecretWipes : Obligations.GoWithoutSecretWipes := by
  refine ⟨BitVec.eq_of_toNat_eq toNat_encode_go, fun _ hop himm => exists_decode_error_of_operand (by simp [hop]) himm,
    fun s h => ?_⟩
  exact ⟨_, exec_go_unusable h, answered_rsps _ _, zeroise_klen _, zeroise_kovf _, zeroise_ctr _, zeroise_valid _,
    readByte_zeroise _ .key, readByte_zeroise _ .code, zeroise_eq_reset _, answered_cfg _ _, answered_moves _ _,
    answered_resetSeen _ _⟩

/-- Settles O20: the stages of R91 are the definitions of `hotpDigest` and `hotp`; on the successful path (`exec_go_usable`) the
Code fills the six bytes of `CODE` (`readByte_code_produceCode`). -/
theorem goProducesTheCode : Obligations.GoProducesTheCode := by
  refine ⟨fun k c => ⟨rfl, length_hotpDigest k c, rfl, rfl⟩, fun s hwf hklen hkovf => ?_⟩
  have hcode := readByte_code_produceCode hwf
  refine ⟨_, exec_go_usable hklen hkovf, fun i hi => ?_, fun a ha => (hcode a).trans (if_neg (Nat.not_lt.mpr ha)),
    produceCode_valid _, fun a => Memory.read_zeroised a, produceCode_klen _, produceCode_kovf _, produceCode_ctr _,
    answered_cfg _ _, answered_resetSeen _ _, answered_moves _ _, answered_rsps _ _⟩
  rw [← secret_eq_map_readByte]
  exact (hcode i).trans (if_pos hi)

/-- Settles O21: the first `GO` leaves an empty secret on either path (`klen_go`), so the second takes the faulting path. -/
theorem secondGoAlwaysFaults : Obligations.SecondGoAlwaysFaults := by
  intro s
  exact ⟨_, _, exec_eq s .go, exec_go_unusable (.inl (klen_go s.toEngine)), answered_rsps _ _, zeroise_eq_reset _⟩

/-- Settles O41: both runs write `HOTP` of the same secret (`secret_congr`) and the same counter. -/
theorem codeDependsOnSecretAndCounterOnly : Obligations.CodeDependsOnSecretAndCounterOnly := by
  intro s₁ s₂ hwf₁ hwf₂ hne hklen hkovf₁ hkovf₂ hctr hkey
  have hcode : s₁.loadedCode = s₂.loadedCode := congrArg₂ hotp (secret_congr hklen hkey) hctr
  refine ⟨_, _, exec_go_usable hne hkovf₁, exec_go_usable (hne.trans_eq hklen) hkovf₂, ?_, fun i hi => ?_⟩
  · exact (produceCode_valid _).trans (produceCode_valid _).symm
  · rw [answered_toEngine, answered_toEngine, ok_fst, ok_fst, readByte_code_produceCode hwf₁, readByte_code_produceCode hwf₂,
      if_pos hi, if_pos hi, hcode]

/-- Settles O43: each byte is a division of the counter's number, which is the bit field (`byteAt_counterMsg`). -/
theorem counterMessageIsBigEndian : Obligations.CounterMessageIsBigEndian :=
  fun c => ⟨length_bytesBe _ _, fun _ hi => byteAt_counterMsg c hi, fun _ => rfl⟩

end Sys2Proof.Machine
end

section
/-! SUPPORT. What the host can tell two engines apart by (R97): a relation between engines that every command keeps while it
answers both alike, as long as no new Code is read; the tie of that condition to the decoded command; then to runs. -/

namespace Sys2Proof.Machine

/-- Two engines alike but for the contents of `KEY` and `CTR`, and of `CODE` too when `fresh` says that a `GO` may have made a
Code of these. -/
structure LooksAlike (fresh : Bool) (e f : Engine) : Prop where
  klen  : e.klen = f.klen
  kovf  : e.kovf = f.kovf
  valid : e.valid = f.valid
  code  : fresh = false → e.code = f.code

/-- Whether `CODE` may hold a new Code after this command (R90, R93, R71). -/
def freshAfter (fresh : Bool) : Instr → Bool
  | .go => true
  | .clr => false
  | _ => fresh

/-- The command reads a byte that `CODE` has: `RDCH 0` to `RDCH 5` (R141). -/
def readsCode : Instr → Bool
  | .rdch idx => indexLegal idx
  | _ => false

section engine
variable {fresh : Bool} {e f : Engine}

theorem LooksAlike.status (h : LooksAlike fresh e f) : e.status = f.status := by
  rw [Engine.status, Engine.status, Engine.kne, Engine.kne, h.klen, h.kovf, h.valid]

theorem LooksAlike.zeroise (fresh : Bool) (e f : Engine) : LooksAlike fresh e.zeroise f.zeroise :=
  ⟨rfl, rfl, rfl, fun _ => rfl⟩

theorem LooksAlike.setOverflow (h : LooksAlike fresh e f) : LooksAlike fresh e.setOverflow f.setOverflow :=
  ⟨h.klen, rfl, h.valid, h.code⟩

theorem LooksAlike.pushKey (h : LooksAlike fresh e f) (b : Byte) : LooksAlike fresh (e.pushKey b) (f.pushKey b) :=
  ⟨congrArg (· + 1) h.klen, h.kovf, h.valid, h.code⟩

theorem LooksAlike.shiftCounter (h : LooksAlike fresh e f) (b : Byte) :
    LooksAlike fresh (e.shiftCounter b) (f.shiftCounter b) := ⟨h.klen, h.kovf, h.valid, h.code⟩

/-- The two new Codes may differ, and nothing else does. -/
theorem LooksAlike.produceCode (e f : Engine) : LooksAlike true e.produceCode f.produceCode where
  klen  := (produceCode_klen e).trans (produceCode_klen f).symm
  kovf  := (produceCode_kovf e).trans (produceCode_kovf f).symm
  valid := (produceCode_valid e).trans (produceCode_valid f).symm
  code  := fun h => nomatch h

/-- Two replies the host cannot tell apart: the same response, and engines that look alike. -/
def RepliesAlike (fresh : Bool) (p q : Reply) : Prop := p.2 = q.2 ∧ LooksAlike fresh p.1 q.1

theorem LooksAlike.ok (h : LooksAlike fresh e f) {d d' : Byte} (hd : d = d') : RepliesAlike fresh (e.ok d) (f.ok d') :=
  ⟨congrArg okWord hd, h⟩

theorem LooksAlike.raise (h : LooksAlike fresh e f) (x : EngineFault) : RepliesAlike fresh (e.raise x) (f.raise x) := ⟨rfl, h⟩

/-- `KEYB` looks at `KLEN` alone to choose its path (R80). -/
theorem LooksAlike.keyb (h : LooksAlike fresh e f) (c : Config) (b : Byte) : RepliesAlike fresh (e.keyb c b) (f.keyb c b) := by
  by_cases hroom : e.klen < c.keyMax
  · rw [keyb_room c e b hroom, keyb_room c f b (h.klen ▸ hroom)]
    exact (h.pushKey b).ok rfl
  · rw [keyb_full c e b hroom, keyb_full c f b (h.klen ▸ hroom)]
    exact h.setOverflow.raise _

/-- `GO` looks at `KLEN` and `KOVF` alone to choose its path, and its response is the path's (R90, R93). -/
theorem LooksAlike.go (h : LooksAlike fresh e f) : RepliesAlike true e.go f.go := by
  by_cases hbad : e.klen = 0 ∨ e.kovf = true
  · rw [go_unusable e hbad, go_unusable f (h.klen ▸ h.kovf ▸ hbad)]
    exact (LooksAlike.zeroise true e f).raise _
  · obtain ⟨hklen, hkovf⟩ := not_or.mp hbad
    have hkovf := Bool.eq_false_of_not_eq_true hkovf
    rw [go_usable e hklen hkovf, go_usable f (h.klen ▸ hklen) (h.kovf ▸ hkovf)]
    exact (LooksAlike.produceCode e f).ok rfl

/-- `RDCH` looks at its index, at `VALID`, and at `CODE` only when both allow it; then the Code is an old one (R141). -/
theorem LooksAlike.rdch (h : LooksAlike fresh e f) (idx : BitVec 3) (hold : indexLegal idx = true → fresh = false) :
    RepliesAlike fresh (e.rdch idx) (f.rdch idx) := by
  by_cases hres : 5 < idx.toNat
  · rw [rdch_reserved e idx hres, rdch_reserved f idx hres]
    exact h.raise _
  · cases hv : e.valid with
    | false =>
      rw [rdch_noCode e idx hres hv, rdch_noCode f idx hres (h.valid ▸ hv)]
      exact h.raise _
    | true =>
      have hcode := h.code (hold (decide_eq_true (Nat.le_of_not_lt hres)))
      rw [rdch_reads e idx hres hv, rdch_reads f idx hres (h.valid ▸ hv)]
      exact h.ok (congrArg (Memory.read · idx.toNat) hcode)

/-- One command cannot tell two engines apart that look alike, unless it reads a new Code. -/
theorem LooksAlike.engineCommand (h : LooksAlike fresh e f) (c : Config) {i : Instr}
    (hold : readsCode i = true → fresh = false) :
    RepliesAlike (freshAfter fresh i) (engineCommand c e i) (engineCommand c f i) := by
  cases i with
  | nop => exact h.ok rfl
  | clr => exact (LooksAlike.zeroise false e f).ok rfl
  | keyb b => exact h.keyb c b
  | ctrb b => exact (h.shiftCounter b).ok rfl
  | go => exact h.go
  | rdst => exact h.ok h.status
  | rdch idx => exact h.rdch idx hold

end engine

/-! ### The moves in which no new Code is read, by the decoded command -/

section moves
variable {fresh : Bool} {w : Cmd} {ms : List HostMove}

/-- A word that is none of `GO`, `CLR` and `RDCH 0` to `RDCH 5`. -/
theorem readsNoNewCode_other (hgo : w.toNat ≠ 0x3000) (hclr : w.toNat ≠ 0x1100)
    (hrdch : ¬ (0x4100 ≤ w.toNat ∧ w.toNat ≤ 0x4105)) :
    readsNoNewCode fresh (.command w :: ms) = readsNoNewCode fresh ms := by
  rw [readsNoNewCode, if_neg hgo, if_neg hclr, if_neg hrdch]

theorem readsNoNewCode_rdch (h : 0x4100 ≤ w.toNat ∧ w.toNat ≤ 0x4105) :
    readsNoNewCode fresh (.command w :: ms) = (!fresh && readsNoNewCode fresh ms) := by
  rw [readsNoNewCode, if_neg (by omega), if_neg (by omega), if_pos h]

theorem readsNoNewCode_illegal {x : IllegalWord} (h : decode w = .error x) :
    readsNoNewCode fresh (.command w :: ms) = readsNoNewCode fresh ms := by
  have hne (i : Instr) : w.toNat ≠ (encode i).toNat := fun hw => nomatch h.symm.trans (decode_eq_ok_of_toNat hw.symm)
  refine readsNoNewCode_other (hne .go) (hne .clr) fun hrdch => ?_
  exact nomatch h.symm.trans (decode_rdch (w := w) (by omega))

theorem readsNoNewCode_encode (i : Instr) : readsNoNewCode fresh (.command (encode i) :: ms) =
    (!(readsCode i && fresh) && readsNoNewCode (freshAfter fresh i) ms) := by
  cases i with
  | nop => rfl
  | clr => rfl
  | go => rfl
  | rdst => rfl
  | keyb b =>
    have hw := toNat_encode_keyb b
    exact readsNoNewCode_other (by omega) (by omega) (by omega)
  | ctrb b =>
    have hw := toNat_encode_ctrb b
    exact readsNoNewCode_other (by omega) (by omega) (by omega)
  | rdch idx =>
    have hw := toNat_encode_rdch idx
    by_cases hidx : idx.toNat ≤ 5
    · rw [readsNoNewCode_rdch (by omega)]
      simp [readsCode, indexLegal, hidx, freshAfter]
    · rw [readsNoNewCode_other (by omega) (by omega) (by omega)]
      simp [readsCode, indexLegal, hidx, freshAfter]

end moves

/-- One command word cannot tell two engines apart that look alike, in moves that read no new Code. -/
theorem LooksAlike.engineStep {fresh : Bool} {e f : Engine} {w : Cmd} {ms : List HostMove} (h : LooksAlike fresh e f)
    (c : Config) (hreads : readsNoNewCode fresh (.command w :: ms) = true) :
    ∃ fresh', RepliesAlike fresh' (engineStep c e w) (engineStep c f w) ∧ readsNoNewCode fresh' ms = true := by
  cases hd : decode w with
  | error x =>
    rw [readsNoNewCode_illegal hd] at hreads
    rw [engineStep_illegal c e hd, engineStep_illegal c f hd]
    exact ⟨fresh, h.raise _, hreads⟩
  | ok i =>
    rw [← decode_eq_ok_iff.mp hd, readsNoNewCode_encode, Bool.and_eq_true] at hreads
    obtain ⟨hold, hrest⟩ := hreads
    rw [engineStep_ok c e hd, engineStep_ok c f hd]
    exact ⟨_, h.engineCommand c fun hi => by simpa [hi] using hold, hrest⟩

/-! ### Runs -/

/-- Two machines the host cannot tell apart, with moves to come in which it reads no new Code. -/
structure Indistinguishable (fresh : Bool) (s t : State) : Prop where
  engine     : LooksAlike fresh s.toEngine t.toEngine
  cfg        : s.cfg = t.cfg
  resetSeen  : s.resetSeen = true
  resetSeen' : t.resetSeen = true
  moves      : s.moves = t.moves
  rsps       : s.rsps = t.rsps
  reads      : readsNoNewCode fresh s.moves = true

/-- Before the first of the moves no Code is new. -/
theorem AlikeButOperands.indistinguishable {s t : State} (h : AlikeButOperands s t) (hr : s.resetSeen = true)
    (hreads : readsNoNewCode false s.moves = true) : Indistinguishable false s t where
  engine     := ⟨h.klen, h.kovf, h.valid, fun _ => h.code⟩
  cfg        := h.cfg
  resetSeen  := hr
  resetSeen' := h.resetSeen.symm.trans hr
  moves      := h.moves
  rsps       := h.rsps
  reads      := hreads

theorem Indistinguishable.step {fresh : Bool} {s t : State} (h : Indistinguishable fresh s t) :
    ∃ fresh' u v, step s = .next u ∧ step t = .next v ∧ Indistinguishable fresh' u v := by
  have hreads := h.reads
  match hm : s.moves with
  | [] => exact ⟨fresh, s, t, step_idle s hm, step_idle t (h.moves.symm.trans hm), h⟩
  | .reset :: ms =>
    rw [hm] at hreads
    exact ⟨false, _, _, step_reset s hm, step_reset t (h.moves.symm.trans hm),
      ⟨LooksAlike.zeroise false s.toEngine t.toEngine, h.cfg, rfl, rfl, rfl, h.rsps, hreads⟩⟩
  | .command w :: ms =>
    rw [hm] at hreads
    obtain ⟨fresh', ⟨hrsp, hengine⟩, hrest⟩ := h.engine.engineStep s.cfg hreads
    have ht := step_word t (h.moves.symm.trans hm) h.resetSeen'
    rw [← h.cfg] at ht
    exact ⟨fresh', _, _, step_word s hm h.resetSeen, ht, ⟨hengine, rfl, h.resetSeen, h.resetSeen', rfl,
      congrArg₂ (fun rs r => rs ++ [r]) h.rsps hrsp, hrest⟩⟩

theorem Indistinguishable.runSteps {fresh : Bool} {s t : State} (h : Indistinguishable fresh s t) (n : Nat) :
    ∃ fresh' u v, runSteps n s = .next u ∧ runSteps n t = .next v ∧ Indistinguishable fresh' u v := by
  induction n generalizing fresh s t with
  | zero => exact ⟨fresh, s, t, runSteps_zero s, runSteps_zero t, h⟩
  | succ n ih =>
    obtain ⟨fresh', s', t', hs, ht, h'⟩ := h.step
    rw [runSteps_succ_of_step n hs, runSteps_succ_of_step n ht]
    exact ih h'

end Sys2Proof.Machine
end

section
/-! The statement on what leaks (R97). -/

namespace Sys2Proof.Machine

/-- Settles O42: the two machines stay indistinguishable through every run of these moves (`Indistinguishable.runSteps`), and
so have been answered alike. -/
theorem operandsLeakOnlyThroughTheCode : Obligations.OperandsLeakOnlyThroughTheCode := by
  intro s₁ s₂ ms hr halike hm hreads
  subst hm
  obtain ⟨_, t₁, t₂, hrun₁, hrun₂, h⟩ := (halike.indistinguishable hr hreads).runSteps s₁.moves.length
  exact ⟨t₁, t₂, hrun₁, hrun₂, h.rsps, h.engine.klen, h.engine.kovf, h.engine.valid⟩

end Sys2Proof.Machine
end

section
/-! SUPPORT. The normalised key (R101) on each side of 64 bytes, the bytes of a pad (R102), and what the HMAC rests on; the
padding of SHA-1 (R111) by the length of the message. -/

namespace Sys2Proof.Machine

theorem shortKey_of_le {k : List Byte} (h : k.length ≤ 64) : shortKey k = k := if_neg (Nat.not_lt.mpr h)

theorem shortKey_of_lt {k : List Byte} (h : 64 < k.length) : shortKey k = sha1 k := if_pos h

theorem normKey_of_le {k : List Byte} (h : k.length ≤ 64) : normKey k = k ++ rep 0x00#8 (64 - k.length) := by
  rw [normKey, shortKey_of_le h]

/-- A long key is replaced by its digest, and that one is short. -/
theorem normKey_sha1 {k : List Byte} (h : 64 < k.length) : normKey (sha1 k) = normKey k := by
  have hshort : (sha1 k).length ≤ 64 := by simp
  rw [normKey, normKey, shortKey_of_lt h, shortKey_of_le hshort]

theorem normKey_of_lt {k : List Byte} (h : 64 < k.length) : normKey k = sha1 k ++ rep 0x00#8 44 := by
  have hshort : (sha1 k).length ≤ 64 := by simp
  rw [← normKey_sha1 h, normKey_of_le hshort, length_sha1]

/-- Zero bytes that the host appends to a short key are the ones that the normalisation appends. -/
theorem normKey_append_rep {k : List Byte} {n : Nat} (h : k.length + n ≤ 64) : normKey (k ++ rep 0x00#8 n) = normKey k := by
  have hlen : (k ++ rep 0x00#8 n).length = k.length + n := by simp
  have hsum : n + (64 - (k.length + n)) = 64 - k.length := by omega
  rw [normKey_of_le (hlen.trans_le h), normKey_of_le (by omega : k.length ≤ 64), hlen, List.append_assoc, rep, rep,
    List.replicate_append_replicate, hsum, rep]

/-- The HMAC reads the key through its normalised form only (R102 to R104). -/
theorem hmacSha1_congr {k k' : List Byte} (h : normKey k = normKey k') (m : List Byte) : hmacSha1 k m = hmacSha1 k' m := by
  rw [hmacSha1, hmacSha1, innerHash, innerHash, innerKey, innerKey, outerKey, outerKey, h]

/-- Zero padding on the right changes no byte, an index past the end reading zero already. -/
theorem byteAt_append_rep_zero (s : List Byte) (n i : Nat) :
    byteAt (s ++ rep 0x00#8 n) i = if i < s.length then byteAt s i else 0x00#8 := by
  split
  next h => exact byteAt_append_left _ h
  next h =>
    obtain ⟨j, rfl⟩ := Nat.exists_eq_add_of_le (Nat.not_lt.mp h)
    rw [byteAt_append_right, byteAt, rep, List.getD_eq_getElem?_getD, List.getElem?_getD_replicate_default_eq]

theorem byteAt_xorByte {s : List Byte} (c : Byte) {i : Nat} (h : i < s.length) : byteAt (xorByte s c) i = byteAt s i ^^^ c := by
  rw [byteAt_of_lt h, byteAt_of_lt ((length_xorByte s c).symm ▸ h)]
  exact List.getElem_map _

@[simp] theorem length_innerKey (k : List Byte) : (innerKey k).length = 64 := by simp [innerKey]

@[simp] theorem length_outerKey (k : List Byte) : (outerKey k).length = 64 := by simp [outerKey]

@[simp] theorem length_innerHash (k m : List Byte) : (innerHash k m).length = 20 := length_sha1 _

@[simp] theorem length_counterMsg (c : Word64) : (counterMsg c).length = 8 := length_bytesBe _ _

/-- What the padding appends depends on the length of the message only. -/
theorem pad_of_length {m : List Byte} {n : Nat} (h : m.length = n) :
    pad m = m ++ [0x80#8] ++ rep 0x00#8 (padZeros n) ++ bytesBe (8 * n) 8 := by
  rw [pad, h]

/-- The zero bytes fill the message, the byte 0x80 and the length field up to whole blocks. -/
theorem add_padZeros (n : Nat) : n + 1 + padZeros n + 8 = 64 * blockCount n := by
  unfold padZeros blockCount
  omega

@[simp] theorem length_pad (m : List Byte) : (pad m).length = 64 * blockCount m.length := by
  simp only [pad, List.length_append, List.length_singleton, length_rep, length_bytesBe]
  exact add_padZeros m.length

end Sys2Proof.Machine
end

section
/-! The statements on the HMAC (R100 to R105). -/

namespace Sys2Proof.Machine

/-- Settles O51: the two forms of the normalised key (`normKey_of_le`, `normKey_of_lt`) read byte by byte; keys with one
normalised form have one HMAC (`hmacSha1_congr`). -/
theorem keyNormalisation : Obligations.KeyNormalisation := by
  refine fun k m => ⟨length_normKey k, fun hk i _ => ?_, fun hk i _ => ?_, fun n hn => hmacSha1_congr (normKey_append_rep hn) m,
    fun hk => hmacSha1_congr (normKey_sha1 hk).symm m⟩
  · rw [normKey_of_le hk, byteAt_append_rep_zero]
  · rw [normKey_of_lt hk, byteAt_append_rep_zero, length_sha1]

/-- Settles O52: the message of the inner hash has 72 bytes and that of the outer one 84, whatever the key and the counter, which
fixes both paddings (`pad_of_length`). -/
theorem hashInputsInsideGo : Obligations.HashInputsInsideGo := by
  intro k c
  have hinner : (innerKey k ++ counterMsg c).length = 72 := by simp
  have houter : (outerKey k ++ innerHash k (counterMsg c)).length = 84 := by simp
  exact ⟨rfl, rfl, pad_of_length hinner, pad_of_length houter, length_innerKey k, length_outerKey k, length_innerHash k _,
    normKey_of_le, normKey_of_lt, length_pad k⟩

/-- Settles O53: the nesting is the definition of `hmacSha1`, and each pad is the normalised key XORed with one byte
(`byteAt_xorByte`). -/
theorem hmacPadsAndNesting : Obligations.HmacPadsAndNesting := by
  refine fun k m => ⟨rfl, length_hmacSha1 k m, length_innerKey k, length_outerKey k, fun i hi => ?_⟩
  have hlt : i < (normKey k).length := (length_normKey k).symm ▸ hi
  exact ⟨byteAt_xorByte _ hlt, byteAt_xorByte _ hlt⟩

end Sys2Proof.Machine
end

section
/-! SUPPORT. SHA-1 (R112 to R119): a big-endian word as a number, the schedule word by word, the round functions and constants
by round number, one more block and one more round, the digest byte by byte. -/

namespace Sys2Proof.Machine

/-! ### The block and the schedule -/

theorem toNat_be32 (b0 b1 b2 b3 : Byte) :
    (be32 b0 b1 b2 b3).toNat = b0.toNat * 2 ^ 24 + b1.toNat * 2 ^ 16 + b2.toNat * 2 ^ 8 + b3.toNat := by
  have happend (n : Nat) (x : BitVec n) (b : Byte) : (x ++ b).toNat = x.toNat * 2 ^ 8 + b.toNat := by
    rw [BitVec.toNat_append, ← Nat.shiftLeft_add_eq_or_of_lt b.isLt, Nat.shiftLeft_eq]
  rw [be32, happend, happend, happend]
  omega

/-- A word of a list is a word of every longer list that begins with it. -/
theorem wordAt_of_prefix {ws vs : List Word32} (h : ws <+: vs) {t : Nat} (ht : t < ws.length) : wordAt vs t = wordAt ws t := by
  obtain ⟨us, rfl⟩ := h
  exact List.getD_append ws us _ t ht

theorem prefix_extendSchedule (n : Nat) (ws : List Word32) : ws <+: extendSchedule n ws := by
  induction n generalizing ws with
  | zero => exact List.prefix_refl ws
  | succ n ih => exact (List.prefix_append ws _).trans (ih _)

@[simp] theorem length_extendSchedule (n : Nat) (ws : List Word32) : (extendSchedule n ws).length = ws.length + n := by
  induction n generalizing ws with
  | zero => rfl
  | succ n ih => rw [extendSchedule, ih, List.length_append, List.length_singleton, Nat.add_assoc, Nat.add_comm 1]

/-- Each word added to a schedule follows from the words before it. -/
theorem wordAt_extendSchedule (n : Nat) (ws : List Word32) {t : Nat} (hlo : ws.length ≤ t) (hhi : t < ws.length + n) :
    wordAt (extendSchedule n ws) t = nextWord ((extendSchedule n ws).take t) := by
  induction n generalizing ws with
  | zero => exact absurd hhi (Nat.not_lt.mpr hlo)
  | succ n ih =>
    have hlen : (ws ++ [nextWord ws]).length = ws.length + 1 := by simp
    obtain rfl | hlt := Nat.eq_or_lt_of_le hlo
    · have htake : (extendSchedule (n + 1) ws).take ws.length = ws :=
        (List.prefix_iff_eq_take.mp (prefix_extendSchedule (n + 1) ws)).symm
      have hword : wordAt (ws ++ [nextWord ws]) ws.length = nextWord ws := by simp [wordAt]
      rw [htake, ← hword]
      exact wordAt_of_prefix (prefix_extendSchedule n _) (hlen ▸ Nat.lt_succ_self _)
    · exact ih (ws ++ [nextWord ws]) (hlen ▸ hlt) (by omega)

/-- The recurrence of R114, read off the whole schedule. -/
theorem nextWord_take {ws : List Word32} {t : Nat} (hlo : 16 ≤ t) (hhi : t ≤ ws.length) :
    nextWord (ws.take t) =
      (wordAt ws (t - 3) ^^^ wordAt ws (t - 8) ^^^ wordAt ws (t - 14) ^^^ wordAt ws (t - 16)).rotateLeft 1 := by
  have hlen : (ws.take t).length = t := List.length_take_of_le hhi
  have hword (k : Nat) (hk : k < t) : wordAt (ws.take t) k = wordAt ws k :=
    (wordAt_of_prefix (List.take_prefix t ws) (hlen.symm ▸ hk)).symm
  rw [nextWord, hlen, hword _ (by omega), hword _ (by omega), hword _ (by omega), hword _ (by omega),
    rotl32_eq_rotateLeft _ (by decide)]

@[simp] theorem length_blockWords (x : List Byte) : (blockWords x).length = 16 := by simp [blockWords]

@[simp] theorem length_schedule (x : List Byte) : (schedule x).length = 80 := by simp [schedule]

theorem wordAt_schedule_of_lt (x : List Byte) {j : Nat} (h : j < 16) : wordAt (schedule x) j = blockWord x j := by
  have hlt : j < (blockWords x).length := (length_blockWords x).symm ▸ h
  rw [schedule, wordAt_of_prefix (prefix_extendSchedule 64 _) hlt, wordAt, List.getD_eq_getElem _ _ hlt]
  simp [blockWords]

theorem wordAt_schedule_of_le (x : List Byte) {t : Nat} (hlo : 16 ≤ t) (hhi : t < 80) :
    wordAt (schedule x) t = (wordAt (schedule x) (t - 3) ^^^ wordAt (schedule x) (t - 8) ^^^ wordAt (schedule x) (t - 14) ^^^
      wordAt (schedule x) (t - 16)).rotateLeft 1 := by
  have hlen := length_blockWords x
  rw [← nextWord_take hlo ((length_schedule x).symm ▸ Nat.le_of_lt hhi)]
  exact wordAt_extendSchedule 64 (blockWords x) (by omega) (by omega)

/-! ### The round functions and constants -/

/-- Where `b` is 1 the mask lets `c ^ d` through, which turns `d` into `c`. -/
theorem chFn_eq_xor (b c d : Word32) : chFn b c d = d ^^^ (b &&& (c ^^^ d)) := by
  have hbit : ∀ b c d : Bool, (b && c || !b && d) = (d ^^ (b && (c ^^ d))) := by decide
  ext i hi
  simp only [chFn, BitVec.getElem_or, BitVec.getElem_and, BitVec.getElem_xor, BitVec.getElem_not]
  exact hbit _ _ _

theorem majFn_eq_or (b c d : Word32) : majFn b c d = (b &&& c) ||| (d &&& (b ||| c)) := by
  have hbit : ∀ b c d : Bool, (b && c || b && d || c && d) = (b && c || d && (b || c)) := by decide
  ext i hi
  simp only [majFn, BitVec.getElem_or, BitVec.getElem_and]
  exact hbit _ _ _

/-- Of the three products an odd number is 1 as soon as one is. -/
theorem majFn_eq_xor (b c d : Word32) : majFn b c d = (b &&& c) ^^^ (b &&& d) ^^^ (c &&& d) := by
  have hbit : ∀ b c d : Bool, (b && c || b && d || c && d) = (b && c ^^ (b && d) ^^ (c && d)) := by decide
  ext i hi
  simp only [majFn, BitVec.getElem_or, BitVec.getElem_and, BitVec.getElem_xor]
  exact hbit _ _ _

theorem roundFn_of_lt_20 {t : Nat} (h : t < 20) (b c d : Word32) : roundFn t b c d = chFn b c d := if_pos h

theorem roundFn_of_lt_40 {t : Nat} (hlo : 20 ≤ t) (hhi : t < 40) (b c d : Word32) : roundFn t b c d = parityFn b c d := by
  rw [roundFn, if_neg (by omega), if_pos hhi]

theorem roundFn_of_lt_60 {t : Nat} (hlo : 40 ≤ t) (hhi : t < 60) (b c d : Word32) : roundFn t b c d = majFn b c d := by
  rw [roundFn, if_neg (by omega), if_neg (by omega), if_pos hhi]

theorem roundFn_of_60_le {t : Nat} (h : 60 ≤ t) (b c d : Word32) : roundFn t b c d = parityFn b c d := by
  rw [roundFn, if_neg (by omega), if_neg (by omega), if_neg (by omega)]

/-- The constants change every 20 rounds (R116). -/
theorem roundConst_eq_getD {t : Nat} (h : t < 80) :
    roundConst t = [0x5A827999#32, 0x6ED9EBA1#32, 0x8F1BBCDC#32, 0xCA62C1D6#32].getD (t / 20) 0#32 := by
  unfold roundConst
  split_ifs with h20 h40 h60
  · rw [show t / 20 = 0 by omega]; rfl
  · rw [show t / 20 = 1 by omega]; rfl
  · rw [show t / 20 = 2 by omega]; rfl
  · rw [show t / 20 = 3 by omega]; rfl

/-! ### Rounds and blocks -/

theorem sha1Rounds_succ (ws : List Word32) (h : Five) (n : Nat) :
    sha1Rounds ws h (n + 1) = sha1Round ws (sha1Rounds ws h n) n := by
  rw [sha1Rounds, List.range_succ, List.foldl_append]
  rfl

theorem sha1Chain_succ (bs : List Byte) (n : Nat) : sha1Chain bs (n + 1) = compress (sha1Chain bs n) (blockAt bs n) := by
  rw [sha1Chain, List.range_succ, List.foldl_append]
  rfl

theorem sha1Round_eq (ws : List Word32) (v : Five) {t : Nat} (h : t < 80) : sha1Round ws v t =
    ⟨v.a.rotateLeft 5 + roundFn t v.b v.c v.d + v.e +
        [0x5A827999#32, 0x6ED9EBA1#32, 0x8F1BBCDC#32, 0xCA62C1D6#32].getD (t / 20) 0#32 + wordAt ws t,
      v.a, v.b.rotateLeft 30, v.c, v.d⟩ := by
  rw [sha1Round, rotl32_eq_rotateLeft _ (by decide), rotl32_eq_rotateLeft _ (by decide), roundConst_eq_getD h]

/-- The padding ends with a whole block, so its length gives the number of blocks. -/
theorem length_pad_div (m : List Byte) : (pad m).length / 64 = blockCount m.length := by
  rw [length_pad, Nat.mul_div_cancel_left _ (by decide)]

/-! ### The digest -/

theorem beByte_toNat_four (w : Word32) {j : Nat} (h : j < 4) : beByte w.toNat 4 j = (w >>> (24 - 8 * j)).setWidth 8 := by
  have hshift : 8 * (4 - 1 - j) = 24 - 8 * j := by omega
  apply BitVec.eq_of_toNat_eq
  rw [beByte, hshift, BitVec.toNat_ofNat, BitVec.toNat_setWidth, BitVec.toNat_ushiftRight, Nat.shiftRight_eq_div_pow]

/-- Words laid out in index order, four bytes each. -/
theorem byteAt_flatMap_bytesBe {ws : List Word32} {i j : Nat} (hi : i < ws.length) (hj : j < 4) :
    byteAt (ws.flatMap fun w => bytesBe w.toNat 4) (4 * i + j) = (wordAt ws i >>> (24 - 8 * j)).setWidth 8 := by
  induction ws generalizing i with
  | nil => exact absurd hi (Nat.not_lt_zero i)
  | cons w ws ih =>
    rw [List.flatMap_cons]
    cases i with
    | zero =>
      rw [Nat.mul_zero, Nat.zero_add, byteAt_append_left _ ((length_bytesBe _ 4).symm ▸ hj), byteAt_bytesBe _ hj,
        beByte_toNat_four w hj]
      rfl
    | succ i =>
      have hindex : 4 * (i + 1) + j = (bytesBe w.toNat 4).length + (4 * i + j) := by
        rw [length_bytesBe]
        omega
      rw [hindex, byteAt_append_right, ih (Nat.lt_of_succ_lt_succ hi)]
      rfl

theorem digestBytes_eq_flatMap (h : Five) :
    digestBytes h = [h.a, h.b, h.c, h.d, h.e].flatMap fun w => bytesBe w.toNat 4 := by
  simp [digestBytes]

theorem byteAt_digestBytes (h : Five) {i j : Nat} (hi : i < 5) (hj : j < 4) :
    byteAt (digestBytes h) (4 * i + j) = (wordAt [h.a, h.b, h.c, h.d, h.e] i >>> (24 - 8 * j)).setWidth 8 := by
  rw [digestBytes_eq_flatMap]
  exact byteAt_flatMap_bytesBe hi hj

/-- Byte 19 is the last byte of `H4`, which no shift moves. -/
theorem byteAt_digestBytes_last (h : Five) : byteAt (digestBytes h) 19 = h.e.setWidth 8 := by
  have hlast := byteAt_digestBytes h (i := 4) (j := 3) (by decide) (by decide)
  rwa [show wordAt [h.a, h.b, h.c, h.d, h.e] 4 = h.e from rfl, Nat.sub_self, BitVec.ushiftRight_zero] at hlast

/-- The offset is the low nibble of byte 19 (R130). -/
theorem toNat_offsel (d : List Byte) : (offsel d).toNat = (byteAt d 19).toNat % 16 := by
  have hmask : (byteAt d 19).toNat &&& 15 = (byteAt d 19).toNat % 16 := Nat.and_two_pow_sub_one_eq_mod _ 4
  rw [offsel, BitVec.toNat_setWidth, BitVec.toNat_and, BitVec.toNat_ofNat]
  exact (congrArg (· % 2 ^ 4) hmask).trans (Nat.mod_mod _ _)

end Sys2Proof.Machine
end

section
/-! The statements on SHA-1 (R110 to R119). -/

namespace Sys2Proof.Machine

/-- Settles O44: the layout is the definition of `pad`; its lengths are those of `length_pad`, and the length field is exact
because the bit length is below 2^64 (`bigEndianValue_bytesBe`). -/
theorem paddingLayout : Obligations.PaddingLayout := by
  intro m hm
  have hlen : (pad m).length = 64 * ((m.length + 8) / 64 + 1) := length_pad m
  refine ⟨padZeros m.length, bytesBe (8 * m.length) 8, rfl, ?_, length_bytesBe _ 8, ?_, hlen, by omega, by omega⟩
  · unfold padZeros
    omega
  · rw [bigEndianValue_bytesBe]
    exact Nat.mod_eq_of_lt (by omega)

/-- Settles O45: the first words of the schedule are the block's (`wordAt_schedule_of_lt`), read as numbers (`toNat_be32`). -/
theorem blockWordsAreBigEndian : Obligations.BlockWordsAreBigEndian := by
  intro x j hj
  rw [wordAt_schedule_of_lt x hj, blockWord, toNat_be32]

/-- Settles O46: the block's words stay in front (`wordAt_schedule_of_lt`), and each word added follows from the ones before it
(`wordAt_schedule_of_le`). -/
theorem scheduleRecurrence : Obligations.ScheduleRecurrence :=
  fun x => ⟨fun _ => wordAt_schedule_of_lt x, fun _ => wordAt_schedule_of_le x⟩

/-- Settles O48: the equivalent forms agree in each bit; the table is `roundFn` on each of its four ranges. -/
theorem roundFunctionForms : Obligations.RoundFunctionForms := by
  intro b c d
  exact ⟨chFn_eq_xor b c d, majFn_eq_or b c d, majFn_eq_xor b c d, fun _ ht => roundFn_of_lt_20 ht b c d,
    fun _ hlo hhi => roundFn_of_lt_40 hlo hhi b c d, fun _ hlo hhi => roundFn_of_lt_60 hlo hhi b c d,
    fun _ hlo _ => roundFn_of_60_le hlo b c d⟩

/-- Settles O49: the number of blocks (`length_pad_div`), one more block (`sha1Chain_succ`), and, with the working variables after
each round as the sequence, one more round (`sha1Rounds_succ`, `sha1Round_eq`). -/
theorem sha1Recurrences : Obligations.Sha1Recurrences := by
  refine ⟨fun m => ?_, fun bs => ⟨rfl, sha1Chain_succ bs⟩, fun h x => ⟨sha1Rounds (schedule x) h, rfl, fun t ht => ?_, rfl⟩⟩
  · rw [length_pad_div, sha1]
  · rw [sha1Rounds_succ, sha1Round_eq _ _ ht]

/-- Settles O50: the digest is the five words laid out one after another (`byteAt_digestBytes`), and the offset reads the last of
its bytes (`toNat_offsel`). -/
theorem digestBytesOfTheChain : Obligations.DigestBytesOfTheChain := by
  refine fun h => ⟨length_digestBytes h, fun i j => byteAt_digestBytes h, byteAt_digestBytes_last h, ?_⟩
  have hlow : (h.e.setWidth 8).toNat = h.e.toNat % 256 := BitVec.toNat_setWidth 8 h.e
  rw [toNat_offsel, byteAt_digestBytes_last, hlow, Nat.mod_mod_of_dvd _ (by decide)]

end Sys2Proof.Machine
end

section
/-! SUPPORT. The truncation pipeline (R131, R132, R134, R135): the mask as a narrowing, the digits of the formatter, and what the
extractor and the whole pipeline read. -/

namespace Sys2Proof.Machine

/-- The mask keeps the 31 low bits as they are (R132): it is the narrowing to 31 bits. -/
theorem mask31_eq_setWidth (p : Word32) : mask31 p = p.setWidth 31 := by
  have hones : (0x7FFFFFFF#32).setWidth 31 = BitVec.allOnes 31 := by decide
  rw [mask31, BitVec.setWidth_and, hones, BitVec.and_allOnes]

theorem isDigitByte_of_mem_decFmt {v : Nat} {b : Byte} (h : b ∈ decFmt v) : isDigitByte b := by
  obtain ⟨k, -, rfl⟩ := List.mem_map.mp h
  exact isDigitByte_digitChar (decDigit_lt v k)

theorem toNat_byteAt_decFmt (v : Nat) {k : Nat} (h : k < 6) : (byteAt (decFmt v) k).toNat = 0x30 + v / 10 ^ (5 - k) % 10 := by
  rw [byteAt_decFmt v h, toNat_digitChar (decDigit_lt v k), decDigit]

/-- The extractor reads only the four bytes of its window (R131). -/
theorem extract_congr {d d' : List Byte} {o : BitVec 4} (h : ∀ j, j < 4 → byteAt d (o.toNat + j) = byteAt d' (o.toNat + j)) :
    extract d o = extract d' o := by
  have h0 : byteAt d o.toNat = byteAt d' o.toNat := h 0 (by decide)
  rw [extract, extract, h0, h 1 (by decide), h 2 (by decide), h 3 (by decide)]

/-- The pipeline reads the offset and the four bytes of the window at it (R135). -/
theorem truncateDigest_congr {d d' : List Byte} (ho : offsel d = offsel d')
    (hwindow : ∀ j, j < 4 → byteAt d ((offsel d).toNat + j) = byteAt d' ((offsel d).toNat + j)) :
    truncateDigest d = truncateDigest d' := by
  rw [truncateDigest, truncateDigest, truncValue, truncValue, ← ho, extract_congr hwindow]

end Sys2Proof.Machine
end

section
/-! The statements on the truncation pipeline (R130 to R136). -/

namespace Sys2Proof.Machine

/-- Settles O54: the extractor is one big-endian word (`toNat_be32`), the offset the low nibble of byte 19 (`toNat_offsel`), and
four bits keep the window's last byte at or below byte 18. -/
theorem extractorWindow : Obligations.ExtractorWindow := by
  intro d o
  have ho : o.toNat < 16 := o.isLt
  exact ⟨toNat_be32 .., by omega, toNat_offsel d⟩

/-- Settles O55: the mask is a narrowing to 31 bits (`mask31_eq_setWidth`), and the reducer is the remainder by definition. -/
theorem maskAndReduce : Obligations.MaskAndReduce := by
  refine ⟨fun p => ?_, fun t => ⟨rfl, Nat.le_of_lt_succ (Nat.mod_lt _ (by decide))⟩⟩
  rw [mask31_eq_setWidth]
  refine ⟨BitVec.toNat_setWidth 31 p, fun i hi => ?_⟩
  rw [BitVec.getLsbD_setWidth, decide_eq_true hi, Bool.true_and]

/-- Settles O56: the laws of a digest's Code are those of the formatter (`length_decFmt`, `isDigitByte_of_mem_decFmt`,
`spelledNumber_decFmt`) on a value in its range (`truncValue_lt`). -/
theorem pipelineLaws : Obligations.PipelineLaws := by
  refine ⟨fun d => ?_, by decide, by decide, fun v hv => ?_⟩
  · have hrange := truncValue_lt d
    exact ⟨length_decFmt _, fun _ => isDigitByte_of_mem_decFmt, spelledNumber_decFmt hrange, Nat.le_of_lt_succ hrange⟩
  · exact ⟨spelledNumber_decFmt (Nat.lt_succ_of_le hv), length_decFmt v, fun _ => toNat_byteAt_decFmt v⟩

/-- Settles O57: the composition is the definition of `truncateDigest`; equal low nibbles give equal offsets (`toNat_offsel`), and
then the window is all that is read (`truncateDigest_congr`). -/
theorem pipelineReadsTheWindowOnly : Obligations.PipelineReadsTheWindowOnly := by
  refine ⟨fun d => rfl, fun d d' hnibble hwindow => ?_⟩
  rw [← toNat_offsel, ← toNat_offsel] at hnibble
  rw [← toNat_offsel] at hwindow
  exact truncateDigest_congr (BitVec.eq_of_toNat_eq hnibble) hwindow

end Sys2Proof.Machine
end

section
/-! SUPPORT. The read commands (R140, R141): the machine after each, with its response as one expression. -/

namespace Sys2Proof.Machine

theorem kne_eq_decide (e : Engine) : e.kne = decide (e.klen ≠ 0) := by rw [Engine.kne, bne, beq_eq_decide, decide_not]

theorem okWord_status (e : Engine) :
    okWord e.status = BitVec.ofNat 16 (4 * e.kovf.toNat + 2 * (decide (e.klen ≠ 0)).toNat + e.valid.toNat) := by
  rw [okWord, ← BitVec.ofNat_toNat, toNat_status, kne_eq_decide]

theorem exec_rdst (s : State) : exec .rdst s = .next { s with rsps := s.rsps ++ [okWord s.status] } := exec_eq s .rdst

/-- The answer of `RDCH`: the reserved indexes are looked at before `VALID` (R159). -/
theorem rdch_snd (e : Engine) (idx : BitVec 3) :
    (e.rdch idx).2 = if 5 < idx.toNat then 0x0200#16 else if e.valid = false then 0x0300#16
      else okWord (e.readByte .code idx.toNat) := by
  by_cases hres : 5 < idx.toNat
  · rw [if_pos hres, rdch_reserved e idx hres]; rfl
  · rw [if_neg hres]
    cases hv : e.valid with
    | false => rw [rdch_noCode e idx hres hv]; rfl
    | true => rw [rdch_reads e idx hres hv]; rfl

theorem exec_rdch (idx : BitVec 3) (s : State) :
    exec (.rdch idx) s = .next { s with rsps := s.rsps ++ [(s.toEngine.rdch idx).2] } := by
  rw [exec_eq, engineCommand, State.answered, rdch_fst]

/-- The bytes of a Code are digits, as the invariants have it (R22). -/
theorem EngineInv.isDigitByte_of_mem_codeBytes {c : Config} {e : Engine} (h : EngineInv c e) (hv : e.valid = true) {b : Byte}
    (hb : b ∈ e.codeBytes) : isDigitByte b := by
  obtain ⟨i, hi, rfl⟩ := List.mem_map.mp hb
  rw [Nat.zero_add]
  exact h.valid_digits hv i (List.mem_range.mp hi)

end Sys2Proof.Machine
end

section
/-! The statements on the read commands (R140 to R142). -/

namespace Sys2Proof.Machine

/-- Settles O23: every path of `RDCH` only answers (`exec_rdch`), with the word of `rdch_snd`. -/
theorem rdchReadsOneCharacter : Obligations.RdchReadsOneCharacter := by
  refine ⟨fun w hop himm => exists_decode_error_of_fields (.inr (.inr ⟨hop, himm⟩)), fun idx s => ⟨toNat_encode_rdch idx, ?_⟩⟩
  rw [exec_rdch, rdch_snd]
  rfl

/-- Settles O39: the six answers are the bytes of the Code (`engineCommands_readCode`), digits by the invariants; `GO` writes
the digits of its `VALUE` (`codeBytes_produceCode`, `spelledNumber_hotp`). -/
theorem readingAWholeCode : Obligations.ReadingAWholeCode := by
  constructor
  · rintro s ⟨hr, hinv⟩ hv
    have hrun := runSteps_sending Pseudo.rdcode.expand hr
    have hread : engineCommands s.cfg s.toEngine Pseudo.rdcode.expand = _ := engineCommands_readCode s.cfg hv
    rw [hread] at hrun
    exact ⟨_, hrun, rfl, fun _ => hinv.isDigitByte_of_mem_codeBytes hv⟩
  · rintro s ⟨-, hinv⟩ hklen hkovf
    refine ⟨_, exec_go_usable hklen hkovf, produceCode_valid _, ?_⟩
    rw [answered_toEngine, ok_fst, codeBytes_produceCode hinv.code_wf]
    exact spelledNumber_hotp _ _

/-- Settles O22: `RDST` only answers (`exec_rdst`), with the number its three flags make (`okWord_status`). -/
theorem rdstReportsStatus : Obligations.RdstReportsStatus := by
  refine ⟨BitVec.eq_of_toNat_eq toNat_encode_rdst, fun _ hop himm => exists_decode_error_of_operand (by simp [hop]) himm,
    fun s => ?_⟩
  rw [exec_rdst, okWord_status]

end Sys2Proof.Machine
end

section
/-! SUPPORT. Which reply of the engine carries which fault (R150, R159): the code of a response word, the four ways a step raises
a fault and what each leaves of the engine, and the code that each command that can fault answers with. -/

namespace Sys2Proof.Machine

@[simp] theorem rspFault_okWord (d : Byte) : rspFault (okWord d) = 0#4 := by
  apply BitVec.eq_of_toNat_eq
  have hlt := d.isLt
  simp only [rspFault, okWord, BitVec.extractLsb'_toNat, BitVec.toNat_setWidth, Nat.shiftRight_eq_div_pow, BitVec.toNat_ofNat]
  omega

@[simp] theorem rspFault_faultWord (f : EngineFault) : rspFault (faultWord f) = f.code := by cases f <;> rfl

/-- The code stands over a zero data byte (R150). -/
theorem toNat_faultWord (f : EngineFault) : (faultWord f).toNat = 256 * f.code.toNat := by cases f <;> rfl

/-- A step succeeds, or raises one of the four faults on the state that R161 lists for it. -/
theorem engineStep_fault_cases (c : Config) (e : Engine) (w : Cmd) :
    (∃ e' d, engineStep c e w = Engine.ok e' d) ∨
    engineStep c e w = e.zeroise.raise .invalidSecret ∨
    engineStep c e w = e.raise .illegalCommand ∨
    (e.valid = false ∧ engineStep c e w = e.raise .noCode) ∨
    (¬ e.klen < c.keyMax ∧ engineStep c e w = e.setOverflow.raise .keyOverflow) := by
  cases hd : decode w with
  | error x => exact .inr (.inr (.inl (engineStep_illegal c e hd)))
  | ok i =>
    rw [engineStep_ok c e hd]
    obtain ⟨-, h⟩ | ⟨-, h⟩ | ⟨b, -, -, h⟩ | ⟨b, -, hfull, h⟩ | ⟨b, -, h⟩ | ⟨-, -, h⟩ | ⟨-, -, -, h⟩ | ⟨-, h⟩ | ⟨idx, -, -, h⟩ |
      ⟨idx, -, -, hv, h⟩ | ⟨idx, -, -, -, h⟩ := engineCommand_cases c e i
    · exact .inl ⟨_, _, h⟩
    · exact .inl ⟨_, _, h⟩
    · exact .inl ⟨_, _, h⟩
    · exact .inr (.inr (.inr (.inr ⟨hfull, h⟩)))
    · exact .inl ⟨_, _, h⟩
    · exact .inr (.inl h)
    · exact .inl ⟨_, _, h⟩
    · exact .inl ⟨_, _, h⟩
    · exact .inr (.inr (.inl h))
    · exact .inr (.inr (.inr (.inl ⟨hv, h⟩)))
    · exact .inl ⟨_, _, h⟩

/-- A response whose fault field is not zero is that field over a zero byte. -/
theorem toNat_engineStep_snd (c : Config) (e : Engine) (w : Cmd) (h : (rspFault (engineStep c e w).2).toNat ≠ 0) :
    (engineStep c e w).2.toNat = 256 * (rspFault (engineStep c e w).2).toNat := by
  obtain ⟨e', d, heq⟩ | heq | heq | ⟨-, heq⟩ | ⟨-, heq⟩ := engineStep_fault_cases c e w
  · simp [heq] at h
  all_goals rw [heq, raise_snd, rspFault_faultWord, toNat_faultWord]

/-! The code of each command that can fault. -/

theorem rspFault_keyb (c : Config) (e : Engine) (b : Byte) :
    rspFault (e.keyb c b).2 = if e.klen < c.keyMax then 0#4 else 4#4 := by
  by_cases h : e.klen < c.keyMax
  · rw [keyb_room c e b h, ok_snd, rspFault_okWord, if_pos h]
  · rw [keyb_full c e b h, raise_snd, rspFault_faultWord, if_neg h, EngineFault.code]

theorem rspFault_go (e : Engine) : rspFault e.go.2 = if e.klen = 0 ∨ e.kovf = true then 1#4 else 0#4 := by
  by_cases h : e.klen = 0 ∨ e.kovf = true
  · rw [go_unusable e h, raise_snd, rspFault_faultWord, if_pos h, EngineFault.code]
  · obtain ⟨hklen, hkovf⟩ := not_or.mp h
    rw [go_usable e hklen (Bool.eq_false_of_not_eq_true hkovf), ok_snd, rspFault_okWord, if_neg h]

theorem rspFault_rdch (e : Engine) (idx : BitVec 3) :
    rspFault (e.rdch idx).2 = if 5 < idx.toNat then 2#4 else if e.valid = false then 3#4 else 0#4 := by
  rw [rdch_snd, apply_ite rspFault, apply_ite rspFault, rspFault_okWord]
  rfl

/-! The two fields of a word as numbers, and from them the words that decode. -/

theorem toNat_encode_div (i : Instr) : (encode i).toNat / 256 = i.op.toNat := by
  rw [← toNat_opField, encode, opField_packWord]

theorem toNat_encode_mod (i : Instr) : (encode i).toNat % 256 = i.imm.toNat := by
  rw [← toNat_immField, encode, immField_packWord]

theorem toNat_imm_rdch (idx : BitVec 3) : (Instr.rdch idx).imm.toNat = idx.toNat := by
  rw [Instr.imm, BitVec.toNat_append]
  simp

/-- The executable words by their two fields (R53) decode. -/
theorem exists_decode_of_fields {w : Cmd}
    (h : (w.toNat / 256 ∈ [0x10, 0x11, 0x30, 0x40] ∧ w.toNat % 256 = 0) ∨ w.toNat / 256 ∈ [0x20, 0x21] ∨
      (w.toNat / 256 = 0x41 ∧ w.toNat % 256 ≤ 5)) : ∃ i, decode w = .ok i := by
  simp only [List.mem_cons, List.not_mem_nil, or_false] at h
  obtain ⟨hop | hop | hop | hop, himm⟩ | (hop | hop) | ⟨hop, himm⟩ := h
  · exact ⟨.nop, decode_eq_ok_of_toNat (by rw [toNat_encode_nop]; omega)⟩
  · exact ⟨.clr, decode_eq_ok_of_toNat (by rw [toNat_encode_clr]; omega)⟩
  · exact ⟨.go, decode_eq_ok_of_toNat (by rw [toNat_encode_go]; omega)⟩
  · exact ⟨.rdst, decode_eq_ok_of_toNat (by rw [toNat_encode_rdst]; omega)⟩
  · exact ⟨_, decode_keyb hop⟩
  · exact ⟨_, decode_ctrb hop⟩
  · exact ⟨_, decode_rdch (by omega)⟩

end Sys2Proof.Machine
end

section
/-! The statements on the faults (R150, R161). -/

namespace Sys2Proof.Machine

/-- Settles O28: an executable word decodes, so an illegal word falls under the first clause; a decoded command answers with the
code of its own rule (`rspFault_keyb`, `rspFault_go`, `rspFault_rdch`), and a full buffer is one whose `KLEN` is `KEY_MAX`. -/
theorem faultCodeOfEveryWord : Obligations.FaultCodeOfEveryWord := by
  intro s w rest hr hle hm
  refine ⟨_, _, _, step_word s hm hr, answered_rsps _ _, rfl, toNat_engineStep_snd _ _ _, ?_⟩
  cases hd : decode w with
  | error x =>
    rw [engineStep_illegal _ _ hd, raise_snd, rspFault_faultWord, if_pos]
    · rfl
    · intro hfields
      obtain ⟨i, hi⟩ := exists_decode_of_fields hfields
      exact nomatch hd.symm.trans hi
  | ok i =>
    rw [engineStep_ok _ _ hd, ← decode_eq_ok_iff.mp hd, toNat_encode_div, toNat_encode_mod]
    cases i with
    | nop | clr | ctrb b | rdst =>
      simp [engineCommand, Engine.nop, Engine.clr, Engine.ctrb, Engine.rdst, Instr.op, Instr.imm]
    | keyb b =>
      have hfull : s.klen < s.cfg.keyMax ↔ ¬ s.klen = s.cfg.keyMax := by omega
      rw [engineCommand, rspFault_keyb, if_congr hfull rfl rfl]
      by_cases h : s.klen = s.cfg.keyMax <;> simp [h, Instr.op]
    | go =>
      rw [engineCommand, rspFault_go]
      by_cases h : s.klen = 0 ∨ s.kovf = true <;> simp [h, Instr.op, Instr.imm]
    | rdch idx =>
      rw [engineCommand, rspFault_rdch, toNat_imm_rdch]
      by_cases hidx : 5 < idx.toNat
      · simp [hidx, Instr.op]
      · cases s.valid <;> simp [hidx, Nat.le_of_not_lt hidx, Instr.op]

/-- Settles O29: each of the four faults is raised on its own row's state (`engineStep_fault_cases`), and no other reply carries
that row's code. -/
theorem faultsChangeWhatTheTableLists : Obligations.FaultsChangeWhatTheTableLists := by
  rintro s w rest ⟨hr, hs⟩ hm
  refine ⟨_, _, step_word s hm hr, answered_rsps _ _, ?_⟩
  rw [answered_toEngine]
  obtain ⟨e', d, h⟩ | h | h | ⟨hv, h⟩ | ⟨hfull, h⟩ := engineStep_fault_cases s.cfg s.toEngine w
  all_goals rw [h]
  · simp
  · simp [EngineFault.code, zeroise_eq_reset]
  · simp [EngineFault.code]
  · simp [EngineFault.code, hv]
  · simp [EngineFault.code, Engine.setOverflow, Nat.le_antisymm hs.klen_le (Nat.le_of_not_lt hfull)]

end Sys2Proof.Machine
end

section
/-! SUPPORT. A run that no step of it can stop, as an induction packaged once; the step of an engine that has been reset; `STATUS`
after reset (R23). -/

namespace Sys2Proof.Machine

/-- Where every state with a property steps to a next state that has it too, no number of steps stops. -/
theorem exists_runSteps_of_step {P : State → Prop} (hstep : ∀ s, P s → ∃ t, step s = .next t ∧ P t) (n : Nat) {s : State}
    (hs : P s) : ∃ t, runSteps n s = .next t ∧ P t := by
  induction n generalizing s with
  | zero => exact ⟨s, runSteps_zero s, hs⟩
  | succ n ih =>
    obtain ⟨u, hu, hPu⟩ := hstep s hs
    rw [runSteps_succ_of_step n hu]
    exact ih hPu

/-- Whatever the host does, an engine that has been reset ends in a next state, and reset has still been seen (R171, R183). -/
theorem exists_step_of_resetSeen (s : State) (hr : s.resetSeen = true) : ∃ t, step s = .next t ∧ t.resetSeen = true := by
  match hm : s.moves with
  | [] => exact ⟨_, step_idle s hm, hr⟩
  | .reset :: rest => exact ⟨_, step_reset s hm, applyReset_resetSeen _⟩
  | .command w :: rest => exact ⟨_, step_word s hm hr, (answered_resetSeen _ _).trans hr⟩

theorem status_reset : Engine.reset.status = 0x00#8 := by decide

end Sys2Proof.Machine
end

section
/-! The statements on reset, on the host's moves, and on an engine that never stops (R171, R180 to R191). -/

namespace Sys2Proof.Machine

/-- Settles O13: the step of an engine that has been reset never stops and keeps that premise (`exists_step_of_resetSeen`). -/
theorem engineNeverStops : Obligations.EngineNeverStops := fun n _ hr => exists_runSteps_of_step exists_step_of_resetSeen n hr

/-- Settles O9: with no move to come the step is idle. -/
theorem nothingHappensBetweenMoves : Obligations.NothingHappensBetweenMoves := step_idle

/-- Settles O10: reset zeroises the engine (`step_reset`), which is the reset state, and hands the host nothing. -/
theorem resetZeroisesEverything : Obligations.ResetZeroisesEverything := by
  intro s rest hm
  exact ⟨_, step_reset s hm, zeroise_klen _, zeroise_kovf _, zeroise_ctr _, zeroise_valid _, status_reset,
    readByte_zeroise _ .key, readByte_zeroise _ .code, zeroise_eq_reset _, applyReset_cfg _, applyReset_resetSeen _,
    applyReset_moves _, applyReset_rsps _⟩

/-- Settles O11: the step asks whether reset has been seen before it looks at the word. -/
theorem commandBeforeFirstResetIsRefused : Obligations.CommandBeforeFirstResetIsRefused :=
  fun s _ _ hr hm => step_refused s hm hr

/-- Settles O27: in the reset state `KEYB` has room because `KEY_MAX` is at least 20, `GO` finds no secret, and `RDCH` finds no
Code. -/
theorem outcomesInTheResetState : Obligations.OutcomesInTheResetState := by
  intro c hc
  refine ⟨⟨_, exec_nop _, rfl⟩, ⟨_, exec_clr _, rfl⟩, fun b => ?_, fun b => ⟨_, exec_eq _ (.ctrb b), rfl⟩,
    ⟨_, exec_go_unusable (.inl rfl), rfl⟩, ⟨_, exec_rdst _, congrArg (fun d => [okWord d]) status_reset⟩,
    fun idx hidx => ⟨_, exec_rdch idx _, ?_⟩⟩
  · have hroom : 0 < c.keyMax := by omega
    exact ⟨_, exec_keyb_room b hroom, rfl, rfl⟩
  · rw [rdch_snd, if_neg (Nat.not_lt.mpr hidx)]
    rfl

end Sys2Proof.Machine
end
